-- ==== Sys2Proof/Word.lean ====
section
/-!
DEFINITION. The words that cross the ports of Q15AU (spec 10_state.md R13, R15, R17, R20, R21).
-/

namespace Sys2Proof

/-- A word of the request or response port: the operands `a`, `b` and the result `y` (R20).
It carries a Q15 in its low half, a Q31, or a binary32 (R21). -/
abbrev Word := BitVec 32

/-- A Q15 raw value `r[15:0]` (R13). -/
abbrev Raw := BitVec 16

/-- The packed request `REQ[66:0]` (R41). -/
abbrev ReqWord := BitVec 67

/-- The packed response `RSP[32:0]` (R42). -/
abbrev RspWord := BitVec 33

end Sys2Proof
end

