-- ==== Sys2Proof/Syntax.lean ====
section
/-!
DEFINITION. Requests, responses and the instructions they stand for (spec 30_encoding.md R41, R42, R44, R47).
An instruction of this unit is one request (30_encoding.md, opening).
-/

namespace Sys2Proof

/-- A request as the port carries it (R20, R41). -/
structure Request where
  op : BitVec 3
  a  : Word
  b  : Word
  deriving DecidableEq, Repr

/-- A response as the port carries it while `rsp_valid = 1` (R20, R42). -/
structure Response where
  ill : Bool
  y   : Word
  deriving DecidableEq, Repr

/-- The operations of R44 and the reserved code of R47, one constructor per row of spec/opcode_table.json. Each
carries both operand words whole, the bits it ignores among them (R45, R46): what is ignored is the meaning's
affair, not the decoder's. -/
inductive Instr where
  | add   (a b : Word)
  | sub   (a b : Word)
  | neg   (a b : Word)
  | mul   (a b : Word)
  | f2q   (a b : Word)
  | q2f   (a b : Word)
  | emul  (a b : Word)
  | rsvd7 (a b : Word)
  deriving DecidableEq, Repr

end Sys2Proof
end

