-- ==== Sys2Proof/WellFormed.lean ====
section
/-!
DEFINITION. What is well formed (spec 30_encoding.md R41, R43, R48, R49).
-/

namespace Sys2Proof

/-- A number is a packed request when it has no bit above bit 66: there is one request length, 67 bits (R41, R49). -/
def reqFits (w : Nat) : Bool := decide (w < 2 ^ 67)

/-- Every instruction is well formed: every value of `a` and `b` is acceptable to every operation (R43), and the bits
an operation ignores are not reserved (R48). One arm per constructor, so that a new one must answer. -/
def Instr.wf : Instr → Bool
  | .add _ _   => true
  | .sub _ _   => true
  | .neg _ _   => true
  | .mul _ _   => true
  | .f2q _ _   => true
  | .q2f _ _   => true
  | .emul _ _  => true
  | .rsvd7 _ _ => true

end Sys2Proof
end

