-- ==== Sys2Proof/Decode.lean ====
section
/-!
DEFINITION. The decoder and the encoder (spec 30_encoding.md R41 to R44, R47, R49; opcode_table.json).
-/

namespace Sys2Proof

/-- The request a packed word stands for: `REQ = {op[2:0], a[31:0], b[31:0]}` (R41). -/
def Request.unpack (w : ReqWord) : Request :=
  { op := w.extractLsb' 64 3, a := w.extractLsb' 32 32, b := w.extractLsb' 0 32 }

/-- The packed word of a request (R41). -/
def Request.pack (r : Request) : ReqWord := r.op ++ r.a ++ r.b

/-- The packed word of a response, `RSP = {ill, y[31:0]}` (R42). -/
def Response.pack (r : Response) : RspWord := BitVec.ofBool r.ill ++ r.y

/-- The response a packed word stands for (R42). -/
def Response.unpack (w : RspWord) : Response := { ill := w.getLsbD 32, y := w.extractLsb' 0 32 }

/-- The opcode map of R44; only `op` selects. The last arm is `op = 7`, the one value left (R47). -/
def decode (r : Request) : Instr :=
  match r.op.toNat with
  | 0 => .add r.a r.b
  | 1 => .sub r.a r.b
  | 2 => .neg r.a r.b
  | 3 => .mul r.a r.b
  | 4 => .f2q r.a r.b
  | 5 => .q2f r.a r.b
  | 6 => .emul r.a r.b
  | _ => .rsvd7 r.a r.b

/-- Why a number is no packed request. -/
inductive DecodeError where
  /-- It has a bit above bit 66, where a request has none (R41, R49). -/
  | tooWide
  deriving DecidableEq, Repr

/-- Decoding of any number: a packed request of 67 bits or a rejection by name. No 67-bit word is rejected (R43). -/
def decodeWord (w : Nat) : Except DecodeError Instr :=
  if reqFits w then .ok (decode (Request.unpack (BitVec.ofNat 67 w))) else .error .tooWide

/-- The operation code of an instruction (R44). -/
def Instr.op : Instr → BitVec 3
  | .add _ _   => 0
  | .sub _ _   => 1
  | .neg _ _   => 2
  | .mul _ _   => 3
  | .f2q _ _   => 4
  | .q2f _ _   => 5
  | .emul _ _  => 6
  | .rsvd7 _ _ => 7

/-- The word on port `a` of an instruction's request. -/
def Instr.wordA : Instr → Word
  | .add a _ | .sub a _ | .neg a _ | .mul a _ | .f2q a _ | .q2f a _ | .emul a _ | .rsvd7 a _ => a

/-- The word on port `b` of an instruction's request. -/
def Instr.wordB : Instr → Word
  | .add _ b | .sub _ b | .neg _ b | .mul _ b | .f2q _ b | .q2f _ b | .emul _ b | .rsvd7 _ b => b

/-- The request of an instruction (R41, R44). -/
def Instr.request (i : Instr) : Request := { op := i.op, a := i.wordA, b := i.wordB }

/-- The encoder: the packed request of an instruction. -/
def encode (i : Instr) : ReqWord := i.request.pack

/-- What the decoder reads from an instruction whose bits, numbered as spec/opcode_table.json numbers them, are `w`:
the packed request itself, since a request has one word and no byte order (R33, R41; log entry 10). The table gives
all 67 bits of a request, so no bit stands above `nbits`. -/
def decodeTableWord (_nbits w : Nat) : Option Instr :=
  match decodeWord w with
  | .ok i    => some i
  | .error _ => none

end Sys2Proof
end

