-- ==== Sys2Proof/Machine/Flags.lean ====
section
/-!
DEFINITION. Flags (spec 10_state.md R25; 60_exceptions.md R71). THE UNIT HAS NONE: no operation sets or reads a
saturation, overflow, carry, zero, negative, inexact or invalid flag, and saturation is silent. The one bit beside a
result is `ill` of its response, which belongs to that response and is not kept.
-/

namespace Sys2Proof.Machine

/-- The response of one of the seven operations, which never fault: `ill = 0` (R71). -/
def normalResponse (y : Word) : Response := { ill := false, y := y }

end Sys2Proof.Machine
end

