-- ==== Sys2Proof/Config.lean ====
section
/-!
DEFINITION. The parameters the unit is built with (spec 00_scope.md R8; 10_state.md R26), with the defaults R8 states.
Nothing else of the unit is open (R8), so there is no opaque value here: a statement holds for every value of a
parameter by holding for every state, since `State.cfg` carries them (log entry 1).
-/

namespace Sys2Proof

/-- The parameter `F2Q_TIE` (R8, R54, D8): how F2Q rounds a scaled value exactly half way between two integers. -/
inductive TieRule where
  /-- To the even one of the two (IEEE 754 roundTiesToEven). The default. -/
  | even
  /-- To the one farther from zero. -/
  | away
  deriving DecidableEq, Repr

/-- The parameter `F2Q_NONFINITE` (R8, R55, D9): a total function from NaN, +∞ and −∞ to raw values, written out
as its three values. -/
structure NonFinite where
  /-- The raw value of a NaN operand, whatever its sign and payload. -/
  nan    : Raw
  /-- The raw value of +∞. -/
  posInf : Raw
  /-- The raw value of −∞. -/
  negInf : Raw
  deriving DecidableEq, Repr

/-- The three parameters of R8. -/
structure Config where
  tie       : TieRule
  nonfinite : NonFinite
  /-- `LATENCY`: transfers (clock edges) from a request to its response; timing only (R88, R89). -/
  latency   : Nat
  deriving DecidableEq, Repr

/-- The default policy of R55: NaN ↦ 0, +∞ ↦ 32767, −∞ ↦ −32768. -/
def NonFinite.default : NonFinite := { nan := 0x0000#16, posInf := 0x7FFF#16, negInf := 0x8000#16 }

/-- The defaults of R8: ties to even, the default policy of R55, LATENCY 0. -/
def Config.default : Config := { tie := .even, nonfinite := NonFinite.default, latency := 0 }

end Sys2Proof
end

