-- ==== Sys2Proof/Machine/Operands.lean ====
section
/-!
DEFINITION. Operands, results, saturation, shifts, rounding and the binary32 fields (spec 00_scope.md R7, R10; 10_state.md
R13, R17, R18, R21; 30_encoding.md R45; 40_conversions.md R54). Integers are unbounded, as in the spec's pseudocode (R10).
-/

namespace Sys2Proof.Machine

/-! ## Constants of R7 and R18 -/

/-- `Q15_MAX`, the largest raw value. -/
def q15Max : Int := 32767
/-- `Q15_MIN`, the smallest raw value. -/
def q15Min : Int := -32768
/-- `SCALE`, 2¹⁵. -/
def scale : Int := 32768
/-- `MUL_ROUND`, 2¹⁴. -/
def mulRound : Int := 16384
/-- `MUL_SHIFT`. -/
def mulShift : Nat := 15

/-- `Q15_ULP`, `Q15_MAX`, `Q15_MIN` as words of a listing (R18, R51). -/
def ulpWord : Word := 0x00000001#32
@[inherit_doc ulpWord] def maxWord : Word := 0x00007FFF#32
@[inherit_doc ulpWord] def minWord : Word := 0x00008000#32

/-! ## Operands and results (R21, R45) -/

/-- A Q15 operand: `sint(w[15:0])`; bits 31:16 are ignored. -/
def q15Operand (w : Word) : Int := (w.extractLsb' 0 16).toInt

/-- The word of a raw value: `sext_32(r)`. -/
def q15Word (r : Raw) : Word := r.signExtend 32

/-- A Q15 result: `sext_32(to_bits_16(r))`. -/
def q15Result (r : Int) : Word := q15Word (BitVec.ofInt 16 r)

/-- A Q31 result: `to_bits_32(p)`. -/
def q31Result (p : Int) : Word := BitVec.ofInt 32 p

/-! ## Integer primitives (R10) -/

/-- `sat16(n)`. -/
def sat16 (n : Int) : Int := if n > q15Max then q15Max else if n < q15Min then q15Min else n

/-- `asr(n, k)` is `floor(n / 2ᵏ)`: it rounds toward −∞, as Lean's division by a positive integer does. -/
def asr (n : Int) (k : Nat) : Int := n / 2 ^ k

/-! ## binary32 (R17) -/

/-- The sign bit `w[31]`. -/
def f32Sign (w : Word) : Bool := w.getLsbD 31
/-- The biased exponent `uint(w[30:23])`. -/
def f32Exp (w : Word) : Nat := (w.extractLsb' 23 8).toNat
/-- The fraction `uint(w[22:0])`. -/
def f32Frac (w : Word) : Nat := (w.extractLsb' 0 23).toNat

/-- The classes of R17 that F2Q tells apart. -/
inductive F32Class where
  /-- Zero, subnormal or normal; `n` is the value in units of 2⁻¹⁴⁹, of which every finite binary32 is a whole number. -/
  | finite (n : Int)
  | posInf
  | negInf
  | nan
  deriving DecidableEq, Repr

/-- The magnitude of a finite word in units of 2⁻¹⁴⁹: `f × 2⁻¹⁴⁹` for a zero or subnormal and
`(1 + f × 2⁻²³) × 2^(e − 127) = (2²³ + f) × 2^(e − 1) × 2⁻¹⁴⁹` for a normal one (R17). -/
def f32Magnitude (w : Word) : Nat :=
  if f32Exp w = 0 then f32Frac w else (2 ^ 23 + f32Frac w) * 2 ^ (f32Exp w - 1)

/-- The table of R17. -/
def f32Class (w : Word) : F32Class :=
  if f32Exp w = 255 then
    if f32Frac w = 0 then (if f32Sign w then .negInf else .posInf) else .nan
  else .finite (if f32Sign w then -(f32Magnitude w : Int) else (f32Magnitude w : Int))

/-- How many units of 2⁻¹⁴⁹ make one: the fixed denominator of the exact values of F2Q. -/
def f32One : Int := 2 ^ 149

/-! ## Rounding of F2Q (R54) -/

/-- `round_int(c / f32One)`: the nearest integer, a tie going by `F2Q_TIE` (R54). With `m` the floor: to `m` below the
half, to `m + 1` above it; at the half, `even` takes the even one of the two, and `away` takes `m + 1` for a positive
value and `m` for a negative one. -/
def roundInt (tie : TieRule) (c : Int) : Int :=
  if 2 * (c % f32One) < f32One then c / f32One
  else if f32One < 2 * (c % f32One) then c / f32One + 1
  else
    match tie with
    | .even => if (c / f32One) % 2 = 0 then c / f32One else c / f32One + 1
    | .away => if 0 < c then c / f32One + 1 else c / f32One

end Sys2Proof.Machine
end

