-- ==== Sys2Proof/Machine/State.lean ====
section
/-!
DEFINITION. The state of the machine (spec 10_state.md R20 to R29; 70_reset_and_hazards.md R83, R84, R91, R92, R94).
The unit has no architectural state (R24): no register, program counter, flag, control register, accumulator, memory or
mode. State holds the parameters the unit is built with, the ports, the pipeline of R28 and R84, and the run of R92.
-/

namespace Sys2Proof.Machine

/-- What the host drives on the input ports at one transfer opportunity (R20, R91). -/
structure Drive where
  /-- `rst`; a unit with LATENCY 0 has no such input (R20, R83). -/
  rst      : Bool
  /-- `req_valid`. -/
  reqValid : Bool
  /-- `op`, `a`, `b`: a request only while `req_valid = 1` (R40). -/
  req      : Request
  deriving DecidableEq, Repr

structure State where
  /-- The parameters of R8, fixed when the unit is built (R26): no step writes them. -/
  cfg       : Config
  /-- The input ports: the head is what the host drives now, the rest what it drives at the transfers to come (R91,
  R92). An empty list is an idle port (log entry 2). -/
  drives    : List Drive
  /-- The pipeline, LATENCY stages, oldest first (R28): `none` is a valid bit of 0, `some r` a valid bit of 1 with the
  response it holds, already computed. The data bits of an invalid stage are unobservable (R29) and are not held. -/
  pipe      : List (Option Response)
  /-- The output ports: `none` is `rsp_valid = 0`, where `y` and `ill` mean nothing (R94). -/
  rsp       : Option Response
  /-- The responses delivered so far, oldest first: the observable outcome of a run (R92). -/
  responses : List Response
  deriving DecidableEq, Repr

/-- Why the machine stops with a fault. There is no reason, so there is no constructor: the one exception of the unit,
`IllegalOp`, is answered on the response port and the machine goes on (R73, R75; log entry 3). Raised by no one; safe. -/
inductive Fault where
  deriving DecidableEq, Repr

/-- Why the machine has no meaning for an instruction. -/
inductive Refusal where
  /-- An instruction whose meaning is not written yet. Raised by no arm: every instruction has its meaning. Safe. -/
  | notModelled (mnemonic : String)
  deriving DecidableEq, Repr

/-- A unit built with the parameters `c`, right after reset: no response pending or shown, every valid bit 0 (R29,
R84). -/
def State.resetWith (c : Config) : State :=
  { cfg := c, drives := [], pipe := List.replicate c.latency none, rsp := none, responses := [] }

/-- The machine right after reset, with the default parameters of R8. -/
def State.reset : State := State.resetWith Config.default

end Sys2Proof.Machine
end

