-- ==== Sys2Proof/Machine/Ops.lean ====
section
/-!
DEFINITION. The operations over the ports and the pipeline, and what raising the one exception does
(spec 10_state.md R20, R28; 20_memory.md R30, R38, R40; 60_exceptions.md R72, R73, R75; 70_reset_and_hazards.md R84, R88, R90, R94).
-/

namespace Sys2Proof.Machine

/-- An idle port: `req_valid = 0`, `rst = 0`. What stands on `op`, `a`, `b` then changes nothing (R40). -/
def Drive.idle : Drive := { rst := false, reqValid := false, req := { op := 0, a := 0, b := 0 } }

/-- A port that carries a request. -/
def Drive.ofRequest (r : Request) : Drive := { rst := false, reqValid := true, req := r }

/-- What the host drives on the input ports now. -/
def State.drive (s : State) : Drive := s.drives.headD Drive.idle

/-- Whether a drive resets the unit: `rst = 1`, on a unit that has that input, one with `LATENCY > 0` (R20, R83, R84). -/
def Drive.resets (c : Config) (d : Drive) : Bool := d.rst && decide (0 < c.latency)

/-- Whether the unit accepts the request of a drive: whenever `req_valid = 1` (R20, R90), but for a unit that is being
reset (R84). -/
def Drive.accepted (c : Config) (d : Drive) : Bool := d.reqValid && !d.resets c

/-- The pipeline over one transfer: what leaves it, and the stages after `new` has entered. With no stages what enters
is what leaves, in the same transfer (R88). -/
def shift (pipe : List (Option Response)) (new : Option Response) : Option Response × List (Option Response) :=
  match pipe with
  | []        => (new, [])
  | o :: rest => (o, rest ++ [new])

/-- The responses that are computed and not yet delivered, oldest first (R28, R92). -/
def State.inFlight (s : State) : List Response := s.pipe.filterMap id

/-- One transfer: `new` enters the pipeline, what leaves it stands on the response port and is delivered, and the host
goes on to what it drives next. -/
def State.advance (new : Option Response) (s : State) : State :=
  { s with
    drives    := s.drives.tail
    pipe      := (shift s.pipe new).2
    rsp       := (shift s.pipe new).1
    responses := s.responses ++ (shift s.pipe new).1.toList }

/-- A transfer whose request is answered by `r`: one response for one request, in order (R38). -/
def State.respond (r : Response) (s : State) : State := s.advance (some r)

/-- A transfer with no request: `req_valid = 0`, so nothing enters the pipeline (R40, R88). -/
def State.idle (s : State) : State := s.advance none

/-- A clock edge with `rst = 1` on a pipelined unit: every valid bit becomes 0, so `rsp_valid = 0`, the requests in
flight are dropped and the one presented is not accepted (R84). -/
def State.resetEdge (s : State) : State :=
  { s with drives := s.drives.tail, pipe := s.pipe.map (fun _ => none), rsp := none }

/-- The exceptions of the unit: there is one (R72). -/
inductive Exception where
  /-- `IllegalOp`: the operation code is reserved. -/
  | illegalOp
  deriving DecidableEq, Repr

/-- The response that reports an exception, `RSP = 1_00000000` (R42, R73): its `ill` bit is the whole cause code, 1
(R72). -/
def Exception.response : Exception → Response
  | .illegalOp => { ill := true, y := 0x00000000#32 }

/-- `raise e` (R73): the response reports it and that is the whole of it. Nothing is saved, no mode or mask changes,
control goes nowhere, and nothing is kept after the response. THERE IS NO RETURN from an exception to go with it: no
handler runs in the unit and the next request is accepted as after any other response (R75). -/
def State.raise (e : Exception) (s : State) : State := s.respond e.response

end Sys2Proof.Machine
end

