-- ==== Sys2Proof/Machine/AddSub.lean ====
section
/-!
DEFINITION. ADD, SUB and NEG (spec 42_add_sub_neg.md R64 to R70): widen, compute exactly, clamp, narrow.
-/

namespace Sys2Proof.Machine

/-- The raw result of ADD: `sat16(A + B)` (R64). -/
def addRaw (a b : Word) : Int := sat16 (q15Operand a + q15Operand b)

/-- The raw result of SUB: `sat16(A − B)`, the difference formed exactly before it is clamped (R65). -/
def subRaw (a b : Word) : Int := sat16 (q15Operand a - q15Operand b)

/-- The raw result of NEG: `sat16(0 − A)`, subtraction from zero, "the required strategy" (R66, R67). -/
def negRaw (a : Word) : Int := sat16 (0 - q15Operand a)

/-- The response to ADD (R64). -/
def addResponse (a b : Word) : Response := normalResponse (q15Result (addRaw a b))

/-- The response to SUB (R65). -/
def subResponse (a b : Word) : Response := normalResponse (q15Result (subRaw a b))

/-- The response to NEG, which ignores `b` (R46, R66). -/
def negResponse (a _b : Word) : Response := normalResponse (q15Result (negRaw a))

/-- ADD (R64). -/
def execAdd (a b : Word) (s : State) : Host.Outcome State Fault Refusal := .next (s.respond (addResponse a b))

/-- SUB (R65). -/
def execSub (a b : Word) (s : State) : Host.Outcome State Fault Refusal := .next (s.respond (subResponse a b))

/-- NEG (R66). -/
def execNeg (a b : Word) (s : State) : Host.Outcome State Fault Refusal := .next (s.respond (negResponse a b))

end Sys2Proof.Machine
end

