-- ==== Sys2Proof/Machine/Convert.lean ====
section
/-!
DEFINITION. F2Q and Q2F (spec 40_conversions.md R53 to R58). Values are exact, counted in units of 2⁻¹⁴⁹, which R56
allows: exact arithmetic and binary32 arithmetic agree on every finite operand (log entry 8).
-/

namespace Sys2Proof.Machine

/-- Scale, clamp, round: the raw result of F2Q for the finite value `n × 2⁻¹⁴⁹` (R53, in the source's order). -/
def f2qFinite (tie : TieRule) (n : Int) : Int :=
  roundInt tie (min (max (n * scale) (q15Min * f32One)) (q15Max * f32One))

/-- The result word of F2Q: the rounded value for a finite operand (R53), `F2Q_NONFINITE` for the others (R55). -/
def f2qWord (c : Config) (a : Word) : Word :=
  match f32Class a with
  | .finite n => q15Result (f2qFinite c.tie n)
  | .posInf   => q15Word c.nonfinite.posInf
  | .negInf   => q15Word c.nonfinite.negInf
  | .nan      => q15Word c.nonfinite.nan

/-- The result word of Q2F, bit by bit: with `m = |r|` and `k` the position of `m`'s leading one, sign, biased
exponent `k + 112` and fraction `(m − 2ᵏ) × 2^(23 − k)`; raw 0 gives +0.0 (R57). -/
def q2fWord (a : Word) : Word :=
  if q15Operand a = 0 then 0x00000000#32
  else
    BitVec.ofBool (decide (q15Operand a < 0))
      ++ BitVec.ofNat 8 (Nat.log2 (q15Operand a).natAbs + 112)
      ++ BitVec.ofNat 23 (((q15Operand a).natAbs - 2 ^ Nat.log2 (q15Operand a).natAbs)
          * 2 ^ (23 - Nat.log2 (q15Operand a).natAbs))

/-- The response to F2Q, which ignores `b` (R46, R53). -/
def f2qResponse (c : Config) (a _b : Word) : Response := normalResponse (f2qWord c a)

/-- The response to Q2F, which ignores `b` (R46, R57). -/
def q2fResponse (a _b : Word) : Response := normalResponse (q2fWord a)

/-- F2Q (R53). -/
def execF2q (a b : Word) (s : State) : Host.Outcome State Fault Refusal := .next (s.respond (f2qResponse s.cfg a b))

/-- Q2F (R57). -/
def execQ2f (a b : Word) (s : State) : Host.Outcome State Fault Refusal := .next (s.respond (q2fResponse a b))

end Sys2Proof.Machine
end

