-- ==== Sys2Proof/Machine/Multiply.lean ====
section
/-!
DEFINITION. EMUL and MUL (spec 41_multiply.md R59 to R63).
-/

namespace Sys2Proof.Machine

/-- The exact product `A × B`, the raw Q31 (R59). -/
def emulRaw (a b : Word) : Int := q15Operand a * q15Operand b

/-- `q` of MUL, steps 1 to 4: the product plus 2¹⁴, shifted right by 15, not yet clamped (R61). -/
def mulShifted (a b : Word) : Int := asr (emulRaw a b + mulRound) mulShift

/-- The raw result of MUL: step 5 saturates the shifted value, not its low 16 bits (R61). -/
def mulRaw (a b : Word) : Int := sat16 (mulShifted a b)

/-- The response to EMUL (R59). -/
def emulResponse (a b : Word) : Response := normalResponse (q31Result (emulRaw a b))

/-- The response to MUL (R61). -/
def mulResponse (a b : Word) : Response := normalResponse (q15Result (mulRaw a b))

/-- EMUL (R59). -/
def execEmul (a b : Word) (s : State) : Host.Outcome State Fault Refusal := .next (s.respond (emulResponse a b))

/-- MUL (R61). -/
def execMul (a b : Word) (s : State) : Host.Outcome State Fault Refusal := .next (s.respond (mulResponse a b))

end Sys2Proof.Machine
end

