-- ==== Sys2Proof/Machine/Reserved.lean ====
section
/-!
DEFINITION. The reserved code (spec 30_encoding.md R47; 60_exceptions.md R72, R73).
-/

namespace Sys2Proof.Machine

/-- `op = 7` raises `IllegalOp`, whatever `a` and `b` are (R47, R73). -/
def execRsvd7 (_a _b : Word) (s : State) : Host.Outcome State Fault Refusal := .next (s.raise .illegalOp)

end Sys2Proof.Machine
end

