-- ==== Sys2Proof/Machine/Dispatch.lean ====
section
/-!
DEFINITION. One arm per operation code (spec 70_reset_and_hazards.md R93).
-/

namespace Sys2Proof.Machine

def exec (i : Instr) (s : State) : Host.Outcome State Fault Refusal :=
  match i with
  | .add a b => Sys2Proof.Machine.execAdd a b s
  | .sub a b => Sys2Proof.Machine.execSub a b s
  | .neg a b => Sys2Proof.Machine.execNeg a b s
  | .mul a b => Sys2Proof.Machine.execMul a b s
  | .f2q a b => Sys2Proof.Machine.execF2q a b s
  | .q2f a b => Sys2Proof.Machine.execQ2f a b s
  | .emul a b => Sys2Proof.Machine.execEmul a b s
  | .rsvd7 a b => Sys2Proof.Machine.execRsvd7 a b s

end Sys2Proof.Machine
end

