-- ==== Sys2Proof/Machine/Step.lean ====
section
/-!
DEFINITION. One step of the unit: one transfer opportunity, a clock edge when LATENCY > 0 (spec 10_state.md R23;
70_reset_and_hazards.md R84, R88 to R90).
-/

namespace Sys2Proof.Machine

/-- One transfer: a reset edge where the unit is being reset (R84); else the request on the port, if there is one, is
accepted, decoded and answered (R90, R93); else the unit idles (R40). -/
def step (s : State) : Host.Outcome State Fault Refusal :=
  if s.drive.resets s.cfg then .next s.resetEdge
  else if s.drive.accepted s.cfg then exec (decode s.drive.req) s
  else .next s.idle

/-- `s` with the packed request `w` on the input port, in place of what the host drives now: all that the next step
needs to accept and run it, whatever the state was. The low 67 bits of `w` are the request, which has no others
(R41). -/
def State.withFetchWord (s : State) (_nbits w : Nat) : State :=
  { s with drives := Drive.ofRequest (Request.unpack (BitVec.ofNat 67 w)) :: s.drives.tail }

end Sys2Proof.Machine
end

