-- ==== Sys2Proof/Machine/Reference.lean ====
section
/-!
DEFINITION. The reference function: the whole unit as one total function from a request to its response
(spec 70_reset_and_hazards.md R93). Everything else about the machine is when that response is delivered.
-/

namespace Sys2Proof.Machine

/-- The response to an instruction, on a unit built with the parameters `c` (R93). -/
def answer (c : Config) (i : Instr) : Response :=
  match i with
  | .add a b   => addResponse a b
  | .sub a b   => subResponse a b
  | .neg a b   => negResponse a b
  | .mul a b   => mulResponse a b
  | .f2q a b   => f2qResponse c a b
  | .q2f a b   => q2fResponse a b
  | .emul a b  => emulResponse a b
  | .rsvd7 _ _ => Exception.response .illegalOp

/-- `exec(op, a, b)` of R93. -/
def reference (c : Config) (r : Request) : Response := answer c (decode r)

end Sys2Proof.Machine
end

