-- ==== Sys2Proof/Machine/Listing.lean ====
section
/-!
DEFINITION. Request lists, the spec's notation for programs (spec 30_encoding.md R50 to R52; 70_reset_and_hazards.md R92).
A listing is the host's: its names are bookkeeping of the host, not state of the unit (R51).
-/

namespace Sys2Proof.Machine

/-- A host value name, the characters after its `%` (R51). -/
abbrev HostName := List Char

/-- An operand of a line (R51): a name bound on an earlier line, a literal of up to eight hexadecimal digits, or one of
the three constants. -/
inductive Operand where
  | name (n : HostName)
  | literal (w : Word)
  | q15Ulp
  | q15Max
  | q15Min
  deriving DecidableEq, Repr

/-- The mnemonics of one operand (R51). -/
inductive UnaryOp where
  | neg | f2q | q2f
  deriving DecidableEq, Repr

/-- The mnemonics of two operands, `RSVD7` for the reserved code among them (R51). -/
inductive BinaryOp where
  | add | sub | mul | emul | rsvd7
  deriving DecidableEq, Repr

/-- A line of a listing: `name = MNEMONIC operand` or `name = MNEMONIC operand, operand` (R51). -/
inductive Line where
  | unary  (name : HostName) (op : UnaryOp) (x : Operand)
  | binary (name : HostName) (op : BinaryOp) (x y : Operand)
  deriving DecidableEq, Repr

/-- The words the host has bound to names. -/
abbrev Bindings := List (HostName × Word)

/-- The name a line binds. -/
def Line.name : Line → HostName
  | .unary n _ _    => n
  | .binary n _ _ _ => n

/-- The operation code of a mnemonic of one operand (R44). -/
def UnaryOp.code : UnaryOp → BitVec 3
  | .neg => 2
  | .f2q => 4
  | .q2f => 5

/-- The operation code of a mnemonic of two operands (R44, R51). -/
def BinaryOp.code : BinaryOp → BitVec 3
  | .add   => 0
  | .sub   => 1
  | .mul   => 3
  | .emul  => 6
  | .rsvd7 => 7

/-- The word an operand puts on its port: the word bound to a name unchanged, a literal, or a constant (R18, R51). -/
def Operand.word (env : Bindings) : Operand → Option Word
  | .name n    => env.lookup n
  | .literal w => some w
  | .q15Ulp    => some ulpWord
  | .q15Max    => some maxWord
  | .q15Min    => some minWord

/-- The request of a line: the first operand on `a`, the second on `b`; a unary line puts zero on `b` (R51). -/
def Line.request (env : Bindings) : Line → Option Request
  | .unary _ op x =>
    match x.word env with
    | some a => some { op := op.code, a := a, b := 0x00000000#32 }
    | none   => none
  | .binary _ op x y =>
    match x.word env, y.word env with
    | some a, some b => some { op := op.code, a := a, b := b }
    | _, _           => none

/-- Letters, digits and `_`, at least one (R51). -/
def HostName.ok (n : HostName) : Bool := !n.isEmpty && n.all fun c => c.isAlphanum || c == '_'

/-- A name stands for a word only where an earlier line has bound it (R51). -/
def Operand.ok (bound : List HostName) : Operand → Bool
  | .name n => bound.contains n
  | _       => true

/-- The operands of a line. -/
def Line.operands : Line → List Operand
  | .unary _ _ x    => [x]
  | .binary _ _ x y => [x, y]

/-- A well-formed listing, after lines that have bound `bound`: names are spelt as R51 says, each is bound once, and
operands name earlier lines. -/
def listingWf (bound : List HostName) : List Line → Bool
  | []      => true
  | l :: ls =>
    l.name.ok && !bound.contains l.name && l.operands.all (·.ok bound) && listingWf (l.name :: bound) ls

/-- The requests of a listing run top to bottom and the responses to them, each line's name bound to the `y` of its
response (R51, R92); `none` where a line names a word that is not bound. -/
def listingRun (c : Config) (env : Bindings) : List Line → Option (List (Request × Response))
  | []      => some []
  | l :: ls =>
    match l.request env with
    | none   => none
    | some r =>
      match listingRun c ((l.name, (reference c r).y) :: env) ls with
      | none   => none
      | some t => some ((r, reference c r) :: t)

end Sys2Proof.Machine
end

