-- ==== Sys2Proof/Safety.lean ====
section
/-!
DEFINITION. The terms claims are stated in: the invariant of the machine, the real values words stand for
(spec 10_state.md R13, R15, R17), and rounding and clamping over the rationals (40_conversions.md R53, R54). Written from
the spec's mathematical rules, apart from the bit-level definitions of Machine/.
-/

namespace Sys2Proof.Machine

/-! ## The invariant -/

/-- A response has the form of R42: `1_00000000` is the only one with `ill = 1`. -/
def responseWf (r : Response) : Bool := !r.ill || r.y == 0x00000000#32

/-- The invariant of the machine: the pipeline has LATENCY stages (R28, R88), what stands on the response port is the
last response delivered (R20, R92), and every response, in flight or delivered, has the form of R42. -/
abbrev State.Inv (s : State) : Prop :=
  s.pipe.length = s.cfg.latency
    ∧ (∀ r ∈ s.rsp, s.responses.getLast? = some r)
    ∧ ∀ r ∈ s.responses ++ s.inFlight, responseWf r = true

/-- The requests the unit accepts from a list of drives, in order. -/
def acceptedRequests (c : Config) (ds : List Drive) : List Request :=
  (ds.filter (·.accepted c)).map (·.req)

/-! ## Values (R13, R15, R17) -/

/-- The Q15 raw value in a word, `sint(w[15:0])`, as R10 defines it: the unsigned value, less 2¹⁶ where bit 15 is set. -/
def rawInt (w : Word) : Int :=
  if w.toNat % 65536 < 32768 then (w.toNat % 65536 : Nat) else (w.toNat % 65536 : Nat) - 65536

/-- The scaled value of the Q15 in a word (R13). -/
def q15Value (w : Word) : Rat := rawInt w * (2 : Rat) ^ (-15 : Int)

/-- The scaled value of the Q31 in a word (R15). -/
def q31Value (w : Word) : Rat := w.toInt * (2 : Rat) ^ (-30 : Int)

/-- `f32_val(w)` where it is a real number: the rows of R17 for zeros, subnormals and normals; `none` for the others. -/
def f32Value (w : Word) : Option Rat :=
  let s : Rat := if w.toNat / 2 ^ 31 = 1 then -1 else 1
  let e : Nat := w.toNat / 2 ^ 23 % 256
  let f : Nat := w.toNat % 2 ^ 23
  if e = 255 then none
  else if e = 0 then some (s * (f * (2 : Rat) ^ (-149 : Int)))
  else some (s * ((1 + f * (2 : Rat) ^ (-23 : Int)) * (2 : Rat) ^ ((e : Int) - 127)))

/-- A word is a NaN: `e = 255`, `f ≠ 0`, either sign, quiet or signalling (R17). -/
def isNaN (w : Word) : Bool := w.toNat / 2 ^ 23 % 256 == 255 && w.toNat % 2 ^ 23 != 0

/-! ## Rounding and clamping (R53, R54) -/

/-- `n` is `round_int(c)` (R54): within a half of `c`, or, where `c` is `m + ½`, the integer `F2Q_TIE` takes. -/
def IsRoundInt (tie : TieRule) (c : Rat) (n : Int) : Prop :=
  (|c - n| < 1 / 2) ∨ ∃ m : Int, c = m + 1 / 2 ∧
    n = match tie with
      | .even => if m % 2 = 0 then m else m + 1
      | .away => if 0 < c then m + 1 else m

/-- The clamp of F2Q: `min(max(s, −32768), 32767)` (R53). -/
def clampQ (s : Rat) : Rat := min (max s (-32768)) 32767

end Sys2Proof.Machine
end

