-- ==== Sys2Proof/Certificates/Slice0/Obligations.lean ====
section
/-!
DEFINITION. The statements for the provers. `A` and `B` of the spec are `rawInt a` and `rawInt b`; values are exact
rationals. `s.respond r` is one transfer answered by `r` (what that leaves unchanged is `ExecFrame`).
-/

open Sys2Proof Sys2Proof.Machine

/-! ## Encoding -/

/-- Eight requests of the tables of 95_test_vectors.md (V-ADD to V-RSVD), one for each operation code, decode to the
instructions and operand words they stand for by R41 and R44. -/
def Obligations.SpecWordsDecode : Prop :=
  decodeWord 0x0000012340000FFFF = .ok (.add 0x00001234 0x0000FFFF)
    ∧ decodeWord 0x10000123400000234 = .ok (.sub 0x00001234 0x00000234)
    ∧ decodeWord 0x200008000DEADBEEF = .ok (.neg 0x00008000 0xDEADBEEF)
    ∧ decodeWord 0x30000400000004000 = .ok (.mul 0x00004000 0x00004000)
    ∧ decodeWord 0x43F00000000000000 = .ok (.f2q 0x3F000000 0x00000000)
    ∧ decodeWord 0x51234800000000000 = .ok (.q2f 0x12348000 0x00000000)
    ∧ decodeWord 0x600007FFF00008000 = .ok (.emul 0x00007FFF 0x00008000)
    ∧ decodeWord 0x77FC00000FFFFFFFF = .ok (.rsvd7 0x7FC00000 0xFFFFFFFF)

/-- R44: the opcode map; only `op` selects, and both operand words reach the instruction whole. -/
def Obligations.OpcodeMapSelectsOnOpAlone : Prop :=
  ∀ a b : Word,
    decode ⟨0, a, b⟩ = .add a b ∧ decode ⟨1, a, b⟩ = .sub a b ∧ decode ⟨2, a, b⟩ = .neg a b
      ∧ decode ⟨3, a, b⟩ = .mul a b ∧ decode ⟨4, a, b⟩ = .f2q a b ∧ decode ⟨5, a, b⟩ = .q2f a b
      ∧ decode ⟨6, a, b⟩ = .emul a b ∧ decode ⟨7, a, b⟩ = .rsvd7 a b

/-- Decoding and encoding agree both ways on every instruction and every 67-bit word, and a wider number is no
request (R41, R43, R49). -/
def Obligations.DecodeAndEncodeAgree : Prop :=
  (∀ i : Instr, i.wf = true → decodeWord (encode i).toNat = .ok i)
    ∧ (∀ w : ReqWord, ∃ i, decodeWord w.toNat = .ok i ∧ encode i = w)
    ∧ ∀ n : Nat, 2 ^ 67 ≤ n → decodeWord n = .error .tooWide

/-- R42: the packed response is `{ill, y}`, no bit of it is lost, and `1_00000000` is the only response with
`ill = 1`. -/
def Obligations.ResponsePackingIsLossless : Prop :=
  (∀ r : Response, r.pack.toNat = (if r.ill then 2 ^ 32 else 0) + r.y.toNat ∧ Response.unpack r.pack = r)
    ∧ (∀ w : RspWord, (Response.unpack w).pack = w)
    ∧ ∀ (c : Config) (i : Instr), (answer c i).ill = true → (answer c i).pack = 0x100000000

/-! ## The step -/

/-- R43: every 67-bit word is a request, and no request is refused, stalls or hangs. From every state the step answers a
next state: that a request with `op = 7` does, its IllegalOp standing on its response as `ill = 1`, is the model's choice
among the two R73 allows (log entry 3), and that an empty list of drives is an idle port is the model's (log entry 2). -/
def Obligations.EveryStepAnswersNext : Prop :=
  (∀ w : ReqWord, ∃ i, decodeWord w.toNat = .ok i) ∧ ∀ s, ∃ t, step s = .next t

/-- A step runs the decoded instruction: with `req_valid = 1` on the port, and no reset, the step is exec of what the
request decodes to, and the step adds nothing of its own (R90, R93). That a request driven with `rst = 1` runs on a unit
with LATENCY 0, which has no such input (R20, R83), is the model's reading (DEDUCED, unsafe: log entry 5). -/
def Obligations.StepRunsTheDecodedInstruction : Prop :=
  ∀ (s : State) (d : Drive) (ds : List Drive), s.drives = d :: ds → d.reqValid = true →
    (d.rst = false ∨ s.cfg.latency = 0) → step s = exec (decode d.req) s

/-- The same for an instruction placed by `withFetchWord`. -/
def Obligations.PlacedInstructionRunsNext : Prop :=
  ∀ (s : State) (nbits w : Nat) (i : Instr), decodeTableWord nbits w = some i →
    step (s.withFetchWord nbits w) = exec i (s.withFetchWord nbits w)
      ∧ (s.withFetchWord nbits w).cfg = s.cfg ∧ (s.withFetchWord nbits w).pipe = s.pipe

/-- R40: with `req_valid = 0`, whatever stands on `op`, `a`, `b` changes nothing. -/
def Obligations.InvalidRequestFieldsChangeNothing : Prop :=
  ∀ (s : State) (rst : Bool) (r r' : Request) (ds : List Drive),
    step { s with drives := ⟨rst, false, r⟩ :: ds } = step { s with drives := ⟨rst, false, r'⟩ :: ds }

/-- An idle transfer: no request, no response of its own; what is in flight moves on by one stage and is delivered in
order (R28, R38, R88). That an empty list of drives is an idle port is the model's choice (log entry 2). -/
def Obligations.IdleTransferOnlyDrains : Prop :=
  ∀ s : State, (s.drives = [] ∨ ∃ r ds, s.drives = ⟨false, false, r⟩ :: ds) →
    ∃ t, step s = .next t ∧ t.cfg = s.cfg ∧ t.drives = s.drives.tail
      ∧ t.rsp :: t.pipe = s.pipe ++ [none]
      ∧ t.responses ++ t.inFlight = s.responses ++ s.inFlight
      ∧ t.responses = s.responses ++ t.rsp.toList

/-- R84: a clock edge with `rst = 1` on a pipelined unit clears every valid bit, shows no response, drops what is in
flight, does not accept the request presented; the next transfer with `rst = 0` is accepted at once. That the list of responses
delivered before stays as it was is the model's choice (log entry 9). -/
def Obligations.ResetEdgeDropsRequestsInFlight : Prop :=
  ∀ (s : State) (d : Drive) (ds : List Drive), s.drives = d :: ds → d.rst = true → 0 < s.cfg.latency →
    ∃ t, step s = .next t ∧ t.cfg = s.cfg ∧ t.drives = ds ∧ t.rsp = none
      ∧ t.pipe = List.replicate s.pipe.length none ∧ t.inFlight = [] ∧ t.responses = s.responses
      ∧ ∀ (r : Request) (ds' : List Drive), ds = ⟨false, true, r⟩ :: ds' → step t = exec (decode r) t

/-- R83: a unit with `LATENCY = 0` has no reset input; what the host drives on `rst` changes nothing (log entry 5). -/
def Obligations.ResetPinAbsentAtLatencyZero : Prop :=
  ∀ (s : State) (v : Bool) (r : Request) (ds : List Drive), s.cfg.latency = 0 →
    step { s with drives := ⟨true, v, r⟩ :: ds } = step { s with drives := ⟨false, v, r⟩ :: ds }

/-- The state after reset: the defaults of R8, no response pending or shown (R29, R84); the empty list of drives and of
responses are the model's (log entries 2 and 9). -/
def Obligations.ResetState : Prop :=
  State.reset.cfg = ⟨.even, ⟨0x0000, 0x7FFF, 0x8000⟩, 0⟩ ∧ State.reset.drives = [] ∧ State.reset.pipe = []
    ∧ State.reset.rsp = none ∧ State.reset.responses = []

/-! ## Results: each says that the instruction completes, for every state and every operand words -/

/-- R64: ADD is the exact sum, saturated. -/
def Obligations.AddSaturatesTheSum : Prop :=
  ∀ (a b : Word) (s : State), ∃ y : Word, exec (.add a b) s = .next (s.respond ⟨false, y⟩)
    ∧ y.toInt = if rawInt a + rawInt b > 32767 then 32767
        else if rawInt a + rawInt b < -32768 then -32768 else rawInt a + rawInt b

/-- R65: SUB is the exact difference, saturated. -/
def Obligations.SubSaturatesTheDifference : Prop :=
  ∀ (a b : Word) (s : State), ∃ y : Word, exec (.sub a b) s = .next (s.respond ⟨false, y⟩)
    ∧ y.toInt = if rawInt a - rawInt b > 32767 then 32767
        else if rawInt a - rawInt b < -32768 then -32768 else rawInt a - rawInt b

/-- R66: NEG is the exact negation, saturated at the one operand −32768; `b` is ignored. -/
def Obligations.NegSaturatesTheNegation : Prop :=
  ∀ (a b : Word) (s : State), ∃ y : Word, exec (.neg a b) s = .next (s.respond ⟨false, y⟩)
    ∧ y.toInt = if rawInt a = -32768 then 32767 else -rawInt a

/-- R67: the response of NEG x is the response of SUB 0, x. -/
def Obligations.NegIsSubtractionFromZero : Prop :=
  ∀ (x b : Word) (s : State), exec (.neg x b) s = exec (.sub 0x00000000 x) s

/-- R61: MUL rounds the exact product half up at bit 15 and saturates the shifted value. -/
def Obligations.MulRoundsHalfUpThenSaturates : Prop :=
  ∀ (a b : Word) (s : State), ∃ (y : Word) (q : Int), exec (.mul a b) s = .next (s.respond ⟨false, y⟩)
    ∧ q * 32768 ≤ rawInt a * rawInt b + 16384 ∧ rawInt a * rawInt b + 16384 < (q + 1) * 32768
    ∧ y.toInt = if q > 32767 then 32767 else if q < -32768 then -32768 else q

/-- R59: EMUL is the exact product, and its Q31 stands for the product of the scaled values. -/
def Obligations.EmulIsTheExactProduct : Prop :=
  ∀ (a b : Word) (s : State), ∃ y : Word, exec (.emul a b) s = .next (s.respond ⟨false, y⟩)
    ∧ y.toInt = rawInt a * rawInt b ∧ q31Value y = q15Value a * q15Value b

/-- R53, with the rounding of R54: F2Q of a finite operand is its value scaled by 2¹⁵, clamped, rounded to nearest by `F2Q_TIE`; of the
others what `F2Q_NONFINITE` says; `b` is ignored. -/
def Obligations.F2qScalesClampsAndRounds : Prop :=
  ∀ (a b : Word) (s : State), ∃ y : Word, exec (.f2q a b) s = .next (s.respond ⟨false, y⟩)
    ∧ (∀ v, f32Value a = some v → IsRoundInt s.cfg.tie (clampQ (v * 32768)) y.toInt)
    ∧ (isNaN a = true → y.toInt = s.cfg.nonfinite.nan.toInt)
    ∧ (a = 0x7F800000 → y.toInt = s.cfg.nonfinite.posInf.toInt)
    ∧ (a = 0xFF800000 → y.toInt = s.cfg.nonfinite.negInf.toInt)

/-- R55: the default policy on non-finite operands. -/
def Obligations.F2qNonFiniteDefaultPolicy : Prop :=
  ∀ (a b : Word) (s : State), s.cfg.nonfinite = NonFinite.default →
    (a = 0x7F800000 → exec (.f2q a b) s = .next (s.respond ⟨false, 0x00007FFF⟩))
      ∧ (a = 0xFF800000 → exec (.f2q a b) s = .next (s.respond ⟨false, 0xFFFF8000⟩))
      ∧ (isNaN a = true → exec (.f2q a b) s = .next (s.respond ⟨false, 0x00000000⟩))

/-- Q2F is exact: the binary32 word of the operand's scaled value, its low 8 bits zero and its biased exponent in 112 to
127 when the operand is not zero, all of which R57 marks as derived from R17 or follows from its pseudocode; +0.0 for raw
0, the spec's decision D10. -/
def Obligations.Q2fIsExact : Prop :=
  ∀ (a b : Word) (s : State), ∃ y : Word, exec (.q2f a b) s = .next (s.respond ⟨false, y⟩)
    ∧ f32Value y = some (q15Value a) ∧ (rawInt a = 0 → y = 0x00000000) ∧ y.toNat % 256 = 0
    ∧ (rawInt a ≠ 0 → 112 ≤ y.toNat / 2 ^ 23 % 256 ∧ y.toNat / 2 ^ 23 % 256 ≤ 127)

/-- R47, R73: the reserved code raises IllegalOp, whatever the operands: the response is `1_00000000`, and nothing is
saved. -/
def Obligations.ReservedCodeAnswersIllegalOp : Prop :=
  ∀ (a b : Word) (s : State), exec (.rsvd7 a b) s = .next (s.respond ⟨true, 0x00000000⟩)
    ∧ (Response.mk true 0x00000000).pack = 0x100000000

/-! ## What every instruction does -/

/-- R93: exec delivers the reference function's response, and that is all it does. -/
def Obligations.ExecDeliversTheReferenceResponse : Prop :=
  ∀ (r : Request) (s : State), exec (decode r) s = .next (s.respond (reference s.cfg r))

/-- The frame of every instruction: the parameters stay, the host goes on to its next drive, the pipeline keeps its
stages, and the responses delivered and in flight stay, in order, and gain this instruction's at the end (R11, R24, R38);
what leaves the pipeline is what the port shows and is delivered (R20, R88). -/
def Obligations.ExecFrame : Prop :=
  ∀ (i : Instr) (s t : State), exec i s = .next t →
    t.cfg = s.cfg ∧ t.drives = s.drives.tail ∧ t.pipe.length = s.pipe.length
      ∧ t.rsp :: t.pipe = s.pipe ++ [some (answer s.cfg i)]
      ∧ t.responses = s.responses ++ t.rsp.toList
      ∧ t.responses ++ t.inFlight = s.responses ++ s.inFlight ++ [answer s.cfg i]

/-- R47, R71: `ill = 1` exactly for `op = 7`, and then `y = 0`; the seven operations never fault. -/
def Obligations.IllExactlyOnReservedCode : Prop :=
  ∀ (i : Instr) (s : State), ∃ r : Response, exec i s = .next (s.respond r)
    ∧ (r.ill = true ↔ i.op = 7) ∧ (i.op = 7 → r.y = 0x00000000)

/-- R73, R75: an IllegalOp response changes no other response: what was delivered and in flight stays, and the next
request, a second reserved code among them, is answered exactly as it would have been without it. -/
def Obligations.IllegalOpLeavesOtherRequestsAlone : Prop :=
  ∀ (a b : Word) (i : Instr) (s : State), ∃ t r u, exec (.rsvd7 a b) s = .next t
    ∧ t.responses ++ t.inFlight = s.responses ++ s.inFlight ++ [⟨true, 0x00000000⟩]
    ∧ exec i s = .next (s.respond r) ∧ exec i t = .next u ∧ u.cfg = s.cfg
    ∧ u.responses ++ u.inFlight = s.responses ++ s.inFlight ++ [⟨true, 0x00000000⟩, r]

/-- R38 item 3, R24, R28: the response to a request is a function of that request alone: two units with the same
`F2Q_TIE` and `F2Q_NONFINITE`, whatever else differs (the requests before, the pipeline, LATENCY), give the same. -/
def Obligations.ResponseDependsOnRequestAlone : Prop :=
  ∀ (i : Instr) (s s' : State), s.cfg.tie = s'.cfg.tie → s.cfg.nonfinite = s'.cfg.nonfinite →
    ∃ r, exec i s = .next (s.respond r) ∧ exec i s' = .next (s'.respond r)

/-- The parameters matter to F2Q alone: the response to every other instruction is the same on any two units (R8, R54,
R55). -/
def Obligations.ParametersMatterToF2qAlone : Prop :=
  ∀ (i : Instr) (s s' : State), i.op ≠ 4 →
    ∃ r, exec i s = .next (s.respond r) ∧ exec i s' = .next (s'.respond r)

/-- R45, R46: the bits an operation ignores change nothing: the high halves of Q15 operands, and all of `b` for NEG,
F2Q, Q2F and the reserved code, which ignores `a` too. -/
def Obligations.IgnoredBitsChangeNothing : Prop :=
  ∀ (a a' b b' : Word) (s : State), a.extractLsb' 0 16 = a'.extractLsb' 0 16 →
    (b.extractLsb' 0 16 = b'.extractLsb' 0 16 →
        exec (.add a b) s = exec (.add a' b') s ∧ exec (.sub a b) s = exec (.sub a' b') s
          ∧ exec (.mul a b) s = exec (.mul a' b') s ∧ exec (.emul a b) s = exec (.emul a' b') s)
      ∧ exec (.neg a b) s = exec (.neg a' b') s ∧ exec (.q2f a b) s = exec (.q2f a' b') s
      ∧ exec (.f2q a b) s = exec (.f2q a b') s
      ∧ ∀ x, exec (.rsvd7 a b) s = exec (.rsvd7 x b') s

/-- R26, R91: no step changes a parameter, or the number of stages. -/
def Obligations.NoStepChangesTheParameters : Prop :=
  ∀ s t, step s = .next t → t.cfg = s.cfg ∧ t.pipe.length = s.pipe.length ∧ t.drives = s.drives.tail

/-- The responses delivered are never taken back or changed: a step only adds to them, at most one, the one the port
shows (R38, R92). That a reset edge (R84) leaves those delivered before as they are is the model's choice (log
entry 9). -/
def Obligations.DeliveredResponsesOnlyGrow : Prop :=
  ∀ s t, step s = .next t → t.responses = s.responses ++ t.rsp.toList

/-! ## Arithmetic laws -/

/-- R14, R69: every Q15 result is sign-extended from its low half, so it is in range and can be fed back as an operand
unchanged. -/
def Obligations.SaturationInvariant : Prop :=
  ∀ (i : Instr) (s : State), i.op.toNat < 5 → ∃ y : Word, exec i s = .next (s.respond ⟨false, y⟩)
    ∧ y = (y.setWidth 16).signExtend 32 ∧ -32768 ≤ y.toInt ∧ y.toInt ≤ 32767 ∧ rawInt y = y.toInt

/-- R60: the range of EMUL, which operands reach its ends, and that bits 31 and 30 differ only in 0x40000000. -/
def Obligations.EmulRange : Prop :=
  ∀ (c : Config) (a b : Word), let y := (answer c (.emul a b)).y;
    -1073709056 ≤ y.toInt ∧ y.toInt ≤ 1073741824
      ∧ (y.toInt = 1073741824 ↔ rawInt a = -32768 ∧ rawInt b = -32768)
      ∧ (y.toInt = -1073709056 ↔ (rawInt a = -32768 ∧ rawInt b = 32767) ∨ (rawInt a = 32767 ∧ rawInt b = -32768))
      ∧ (y.getLsbD 31 ≠ y.getLsbD 30 ↔ y = 0x40000000)

/-- R62: MUL never returns −32768, and only −32768 × −32768 saturates: for every other pair the result is the rounded
product itself. -/
def Obligations.MulSaturatesOnOnePairOnly : Prop :=
  ∀ (c : Config) (a b : Word), let y := (answer c (.mul a b)).y;
    -32767 ≤ y.toInt ∧ y.toInt ≤ 32767
      ∧ (rawInt a = -32768 ∧ rawInt b = -32768 → y.toInt = 32767)
      ∧ (¬(rawInt a = -32768 ∧ rawInt b = -32768) →
          y.toInt * 32768 ≤ rawInt a * rawInt b + 16384 ∧ rawInt a * rawInt b + 16384 < (y.toInt + 1) * 32768)

/-- R63 item 2: MUL is within half an ULP of the product of the scaled values, clamped to the Q15 range. -/
def Obligations.MulIsWithinHalfAnUlp : Prop :=
  ∀ (c : Config) (a b : Word),
    |q15Value (answer c (.mul a b)).y - min (max (q15Value a * q15Value b) (-1)) (1 - (2 : Rat) ^ (-15 : Int))|
      ≤ (2 : Rat) ^ (-16 : Int)

/-- R63 items 1, 3, 4, 5, 6: MUL and EMUL commute; MUL is not odd; 32767 is an identity exactly on −16383 to 16384, and
−32768 negates; no associativity, no distributivity; MUL narrows EMUL's product. -/
def Obligations.MulLaws : Prop :=
  ∀ c : Config, let mul := fun a b => (answer c (.mul a b)).y;
    let add := fun a b => (answer c (.add a b)).y;
    let neg := fun a => (answer c (.neg a 0)).y;
    let emul := fun a b => (answer c (.emul a b)).y;
    (∀ a b, mul a b = mul b a ∧ emul a b = emul b a)
      ∧ mul 0x0001 0x4000 = 1 ∧ mul 0xFFFF 0x4000 = 0
      ∧ (∀ x, (mul x 0x7FFF).toInt = rawInt x ↔ -16383 ≤ rawInt x ∧ rawInt x ≤ 16384)
      ∧ (∀ x, mul x 0x8000 = neg x)
      ∧ (∃ x y z, mul (mul x y) z ≠ mul x (mul y z))
      ∧ (∃ x y z, mul x (add y z) ≠ add (mul x y) (mul x z))
      ∧ (∀ a b, let q := ((emul a b).toInt + 16384) / 32768;
          (mul a b).toInt = if q > 32767 then 32767 else if q < -32768 then -32768 else q)

/-- R68: the laws of ADD, SUB and NEG, and those that fail. -/
def Obligations.AddSubNegLaws : Prop :=
  ∀ c : Config, let add := fun a b => (answer c (.add a b)).y;
    let sub := fun a b => (answer c (.sub a b)).y;
    let neg := fun a => (answer c (.neg a 0)).y;
    (∀ a b, add a b = add b a)
      ∧ (∀ a b, sub a b = neg (sub b a) ↔ rawInt a - rawInt b ≥ -32767)
      ∧ (∃ a b d, add (add a b) d ≠ add a (add b d))
      ∧ (∀ a b, rawInt b ≠ -32768 → sub a b = add a (neg b))
      ∧ (∀ a b, rawInt b = -32768 → (sub a b = add a (neg b) ↔ 0 ≤ rawInt a))
      ∧ (∀ a b, -32768 ≤ rawInt a + rawInt b ∧ rawInt a + rawInt b ≤ 32767 →
          (add a b).toInt = rawInt a + rawInt b)
      ∧ (∀ a b, -32768 ≤ rawInt a - rawInt b ∧ rawInt a - rawInt b ≤ 32767 →
          (sub a b).toInt = rawInt a - rawInt b)
      ∧ (∀ a a' b, rawInt a ≤ rawInt a' →
          (add a b).toInt ≤ (add a' b).toInt ∧ (add b a).toInt ≤ (add b a').toInt
            ∧ (sub a b).toInt ≤ (sub a' b).toInt ∧ (sub b a').toInt ≤ (sub b a).toInt)

/-- R58: F2Q of Q2F of x is x, for every raw value and both tie rules; and Q2F of F2Q of a finite word returns it only
where its value is a representable multiple of 2⁻¹⁵ and it is not −0. -/
def Obligations.ConversionRoundTrip : Prop :=
  (∀ (x b b' : Word) (s t : State), ∃ w : Word, exec (.q2f x b) s = .next (s.respond ⟨false, w⟩)
      ∧ exec (.f2q w b') t = .next (t.respond ⟨false, (x.setWidth 16).signExtend 32⟩))
    ∧ ∀ (c : Config) (w : Word) (v : Rat), f32Value w = some v →
      (answer c (.q2f (answer c (.f2q w 0)).y 0)).y = w →
        (∃ n : Int, v * 32768 = n ∧ -32768 ≤ n ∧ n ≤ 32767) ∧ w ≠ 0x80000000

/-- Corner cases of R53, for either tie rule: both zeros and everything below 2⁻¹⁶ give 0; 1 − 2⁻¹⁵ and above, 1.0 and
2.0 among them, give 32767; −1.0 and below give −32768. -/
def Obligations.F2qCornerCases : Prop :=
  ∀ (c : Config) (a b : Word) (v : Rat), f32Value a = some v → let y := (answer c (.f2q a b)).y;
    (|v| < (2 : Rat) ^ (-16 : Int) → y = 0x00000000)
      ∧ (1 - (2 : Rat) ^ (-15 : Int) ≤ v → y = 0x00007FFF)
      ∧ (v ≤ -1 → y = 0xFFFF8000)

/-- F2Q is monotone on finite operands, with either tie rule (95_test_vectors.md T13). -/
def Obligations.F2qIsMonotone : Prop :=
  ∀ (c : Config) (a a' b b' : Word) (v v' : Rat), f32Value a = some v → f32Value a' = some v' → v ≤ v' →
    (answer c (.f2q a b)).y.toInt ≤ (answer c (.f2q a' b')).y.toInt

/-- The two tie rules differ on ties alone, and then by one at most (R54). -/
def Obligations.TieRulesDifferOnTiesAlone : Prop :=
  ∀ (c c' : Config) (a b : Word) (v : Rat), f32Value a = some v →
    c.nonfinite = c'.nonfinite →
    |(answer c (.f2q a b)).y.toInt - (answer c' (.f2q a b)).y.toInt| ≤ 1
      ∧ ((∀ m : Int, clampQ (v * 32768) ≠ m + 1 / 2) → answer c (.f2q a b) = answer c' (.f2q a b))

/-! ## The machine as a whole -/

/-- A unit with any parameters right after reset has the invariant, shows no response and has none in flight (R29, R84);
that the list of responses delivered is empty is the model's choice (log entry 9). -/
def Obligations.InvariantAtReset : Prop :=
  (∀ c : Config, (State.resetWith c).Inv ∧ (State.resetWith c).rsp = none ∧ (State.resetWith c).inFlight = []
      ∧ (State.resetWith c).responses = [])
    ∧ State.reset.Inv

/-- Every step keeps the invariant, from every state that has it: the pipeline has LATENCY stages, the port shows the
last response delivered, and `1_00000000` is the only response with `ill = 1` (R28, R42, R92). -/
def Obligations.StepKeepsInvariant : Prop :=
  ∀ s t : State, s.Inv → step s = .next t → t.Inv

/-- R38: from every state, over any list of drives that does not reset the unit, however the requests are spaced, every
accepted request gets exactly one response, in order, the reference function's. -/
def Obligations.RunAnswersEachRequestOnceInOrder : Prop :=
  ∀ (s : State) (ds rest : List Drive), (∀ d ∈ ds, d.resets s.cfg = false) →
    ∃ t, core.run ds.length { s with drives := ds ++ rest } = .next t ∧ t.cfg = s.cfg ∧ t.drives = rest
      ∧ t.responses ++ t.inFlight
          = s.responses ++ s.inFlight ++ (acceptedRequests s.cfg ds).map (reference s.cfg)

/-- R92: a run of n requests, back to back, and LATENCY transfers more: no response is pending, and those delivered are
those pending before and then the reference function's of each request, in order. -/
def Obligations.RunEndsWithEveryRequestAnswered : Prop :=
  ∀ (s : State) (reqs : List Request), s.pipe.length = s.cfg.latency →
    ∃ t, core.run (reqs.length + s.cfg.latency)
        { s with drives := reqs.map Drive.ofRequest ++ List.replicate s.cfg.latency Drive.idle } = .next t
      ∧ t.inFlight = [] ∧ t.responses = s.responses ++ s.inFlight ++ reqs.map (reference s.cfg)

/-- R88: the response to a request stands on the response port after LATENCY transfers, the same number for every
operation and operand, whatever the host drives meanwhile short of a reset. -/
def Obligations.ResponseStandsAfterLatency : Prop :=
  ∀ (s t : State) (i : Instr), s.pipe.length = s.cfg.latency → exec i s = .next t →
    (∀ d ∈ t.drives.take s.cfg.latency, d.resets s.cfg = false) →
    ∃ u, core.run s.cfg.latency t = .next u ∧ u.rsp = some (answer s.cfg i)

/-- R51, R44, R18: a line's request: the mnemonic's code, the first operand's word on `a`, the second's on `b`, zero on
`b` of a unary line; and what each operand stands for. -/
def Obligations.ListingLinePlacesOperands : Prop :=
  ∀ (env : Bindings) (n : HostName) (x y : Operand) (a b : Word), x.word env = some a → y.word env = some b →
    ((Line.binary n .add x y).request env = some ⟨0, a, b⟩ ∧ (Line.binary n .sub x y).request env = some ⟨1, a, b⟩
        ∧ (Line.binary n .mul x y).request env = some ⟨3, a, b⟩ ∧ (Line.binary n .emul x y).request env = some ⟨6, a, b⟩
        ∧ (Line.binary n .rsvd7 x y).request env = some ⟨7, a, b⟩)
      ∧ ((Line.unary n .neg x).request env = some ⟨2, a, 0⟩ ∧ (Line.unary n .f2q x).request env = some ⟨4, a, 0⟩
        ∧ (Line.unary n .q2f x).request env = some ⟨5, a, 0⟩)
      ∧ (Operand.name n).word ((n, a) :: env) = some a ∧ (Operand.literal a).word env = some a
      ∧ Operand.q15Ulp.word env = some 0x00000001 ∧ Operand.q15Max.word env = some 0x00007FFF
      ∧ Operand.q15Min.word env = some 0x00008000

/-- R51, R92: a well-formed listing runs to its end, one request a line, each answered by the reference function; and
the machine given those requests delivers those responses. How a listing is held is the model's (log entry 11). -/
def Obligations.WellFormedListingRuns : Prop :=
  ∀ (s : State) (ls : List Line), listingWf [] ls = true → s.pipe.length = s.cfg.latency →
    ∃ tr, listingRun s.cfg [] ls = some tr ∧ tr.length = ls.length
      ∧ (∀ p ∈ tr, p.2 = reference s.cfg p.1)
      ∧ ∃ t, core.run (tr.length + s.cfg.latency)
          { s with drives := (tr.map (·.1)).map Drive.ofRequest ++ List.replicate s.cfg.latency Drive.idle } = .next t
        ∧ t.responses = s.responses ++ s.inFlight ++ tr.map (·.2)
end

