-- ==== Sys2Proof/Laws/Operands.lean ====
section
/-!
SUPPORT. Ranges of operands, what a result word denotes, and saturation: the arithmetic facts the results rest on.
-/

namespace Sys2Proof.Machine

/-- The operand an operation reads is the raw value of the word as the spec defines it. -/
theorem q15Operand_eq_rawInt (w : Word) : q15Operand w = rawInt w := by
  simp only [q15Operand, rawInt, BitVec.toInt_eq_toNat_cond, BitVec.extractLsb'_toNat]
  simp only [Nat.shiftRight_zero]
  norm_num
  split_ifs <;> omega

theorem rawInt_range (w : Word) : -32768 ≤ rawInt w ∧ rawInt w ≤ 32767 := by
  unfold rawInt
  split_ifs <;> omega

theorem sat16_range (n : Int) : -32768 ≤ sat16 n ∧ sat16 n ≤ 32767 := by
  unfold sat16 q15Max q15Min
  split_ifs <;> omega

theorem sat16_eq (n : Int) : sat16 n = if n > 32767 then 32767 else if n < -32768 then -32768 else n := rfl

theorem sat16_of_range {n : Int} (h : -32768 ≤ n ∧ n ≤ 32767) : sat16 n = n := by
  unfold sat16 q15Max q15Min
  split_ifs <;> omega

/-- A result word denotes its raw value, which lies in the 16-bit range. -/
theorem toInt_q15Result {r : Int} (h : -32768 ≤ r ∧ r ≤ 32767) : (q15Result r).toInt = r := by
  unfold q15Result q15Word
  rw [BitVec.toInt_signExtend_of_le (by norm_num), BitVec.toInt_ofInt]
  apply Int.bmod_eq_of_le <;> omega

theorem toInt_q31Result {p : Int} (h : -2147483648 ≤ p ∧ p ≤ 2147483647) : (q31Result p).toInt = p := by
  unfold q31Result
  rw [BitVec.toInt_ofInt]
  apply Int.bmod_eq_of_le <;> omega

/-- A word that sign-extends its low half carries in it the integer it denotes. -/
theorem rawInt_q15Word (r : Raw) : rawInt (q15Word r) = r.toInt := by
  rw [← q15Operand_eq_rawInt]
  unfold q15Operand q15Word
  congr 1
  ext i hi
  simp only [BitVec.getElem_extractLsb', BitVec.getLsbD_signExtend, Nat.zero_add]
  simp [hi, show i < 32 by omega]

/-- Both factors lie in the 16-bit range, so the product does in the 32-bit one. -/
theorem emulRaw_range (a b : Word) : -2147483648 ≤ emulRaw a b ∧ emulRaw a b ≤ 2147483647 := by
  unfold emulRaw
  rw [q15Operand_eq_rawInt, q15Operand_eq_rawInt]
  obtain ⟨h1, h2⟩ := rawInt_range a
  obtain ⟨h3, h4⟩ := rawInt_range b
  constructor <;> nlinarith

end Sys2Proof.Machine
end

