-- ==== Sys2Proof/Laws/Convert.lean ====
section
/-!
SUPPORT. What the conversions compute: the classes of R17 against the values words stand for, rounding against R54, and
the number Q2F's result word is.
-/

namespace Sys2Proof.Machine

/-- The fields of R17 as digits of the word. -/
theorem f32_fields (w : Word) :
    f32Exp w = w.toNat / 2^23 % 256 ∧ f32Frac w = w.toNat % 2^23
      ∧ (f32Sign w = true ↔ w.toNat / 2^31 = 1) := by
  have := w.isLt
  refine ⟨?_, ?_, ?_⟩
  · simp [f32Exp, BitVec.extractLsb'_toNat, Nat.shiftRight_eq_div_pow]
  · simp [f32Frac, BitVec.extractLsb'_toNat]
  · simp only [f32Sign, BitVec.getLsbD, Nat.testBit_eq_decide_div_mod_eq, decide_eq_true_eq]
    omega

/-- A word classed finite stands for its count of 2⁻¹⁴⁹ (R17). -/
theorem f32Value_of_finite (w : Word) (n : Int) (h : f32Class w = .finite n) :
    f32Value w = some (n * (2:ℚ)^(-149:ℤ)) := by
  obtain ⟨he, hf, hs⟩ := f32_fields w
  unfold f32Class at h
  split_ifs at h with h1 h2 h3 h4
  all_goals simp only [F32Class.finite.injEq] at h
  all_goals
    unfold f32Value
    simp only [← he, ← hf, h1, if_false]
    unfold f32Magnitude at h
    split_ifs at h ⊢ with h5 h6
  all_goals first | (exfalso; simp_all; done) | subst h
  · push_cast; ring_nf
  · push_cast
    have : ((f32Exp w : ℤ) - 127) = ((f32Exp w - 1 : ℕ) : ℤ) + (-149) + 23 := by omega
    rw [this, zpow_add₀ (by norm_num), zpow_add₀ (by norm_num), zpow_natCast]
    rw [show (-23:ℤ) = -(23:ℤ) by norm_num, zpow_neg]
    field_simp
    norm_num
    ring
  · push_cast; ring_nf
  · push_cast
    have : ((f32Exp w : ℤ) - 127) = ((f32Exp w - 1 : ℕ) : ℤ) + (-149) + 23 := by omega
    rw [this, zpow_add₀ (by norm_num), zpow_add₀ (by norm_num), zpow_natCast]
    rw [show (-23:ℤ) = -(23:ℤ) by norm_num, zpow_neg]
    field_simp
    norm_num
    ring

/-- `roundInt` is the rounding of R54. -/
theorem roundInt_isRoundInt (tie : TieRule) (c : Int) :
    IsRoundInt tie ((c : ℚ) * (2:ℚ)^(-149:ℤ)) (roundInt tie c) := by
  have hD : (0:ℤ) < f32One := by unfold f32One; positivity
  have hDq : (0:ℚ) < (f32One : ℚ) := by exact_mod_cast hD
  have e : (2:ℚ)^(-149:ℤ) = 1 / (f32One : ℚ) := by
    unfold f32One; rw [zpow_neg]; push_cast; norm_num
  rw [e]
  have hdm := Int.mul_ediv_add_emod c f32One
  have h0 := Int.emod_nonneg c hD.ne'
  have h1 := Int.emod_lt_of_pos c hD
  unfold roundInt
  set m := c / f32One with hm
  set r := c % f32One with hr
  have hc : (c : ℚ) * (1 / f32One) = m + (r : ℚ) / f32One := by
    rw [← hdm]; push_cast; field_simp
  have r0 : (0:ℚ) ≤ (r:ℚ) / f32One := div_nonneg (by exact_mod_cast h0) hDq.le
  have r1 : (r:ℚ) / f32One < 1 := by rw [div_lt_one hDq]; exact_mod_cast h1
  unfold IsRoundInt
  rw [hc]
  by_cases h2 : 2 * r < f32One
  · rw [if_pos h2]
    left
    have : (r:ℚ)/f32One < 1/2 := by
      rw [div_lt_div_iff₀ hDq (by norm_num)]
      exact_mod_cast (by omega : r * 2 < 1 * f32One)
    rw [abs_lt]; constructor <;> linarith
  rw [if_neg h2]
  by_cases h3 : f32One < 2 * r
  · rw [if_pos h3]
    left
    have : 1/2 < (r:ℚ)/f32One := by
      rw [div_lt_div_iff₀ (by norm_num) hDq]
      exact_mod_cast (by omega : 1 * f32One < r * 2)
    push_cast
    rw [abs_lt]; constructor <;> linarith
  · rw [if_neg h3]
    right
    have hhalf : (r:ℚ)/f32One = 1/2 := by
      rw [div_eq_div_iff hDq.ne' (by norm_num)]
      exact_mod_cast (by omega : r * 2 = 1 * f32One)
    refine ⟨m, by rw [hhalf], ?_⟩
    cases tie with
    | even => rfl
    | away =>
      dsimp only
      have : (0 < c) ↔ (0:ℚ) < m + r / f32One := by
        rw [← hc]
        constructor
        · intro h; have : (0:ℚ) < c := by exact_mod_cast h
          positivity
        · intro h
          by_contra hn
          have : (c:ℚ) ≤ 0 := by exact_mod_cast (by omega : c ≤ 0)
          have : (c:ℚ) * (1 / f32One) ≤ 0 := mul_nonpos_of_nonpos_of_nonneg this (by positivity)
          linarith
      simp only [this]

/-- Scaling, clamping and rounding counts of 2⁻¹⁴⁹ is scaling, clamping and rounding the value (R53). -/
theorem f2qFinite_isRoundInt (n : ℤ) (tie : TieRule) :
    IsRoundInt tie (clampQ ((n * (2:ℚ)^(-149:ℤ)) * 32768))
      (f2qFinite tie n) := by
  unfold f2qFinite
  have := roundInt_isRoundInt tie (min (max (n * scale) (q15Min * f32One)) (q15Max * f32One))
  convert this using 1
  unfold clampQ
  have hp : (0:ℚ) ≤ (2:ℚ)^(-149:ℤ) := by positivity
  have ho : ((2:ℚ)^149) * (2:ℚ)^(-149:ℤ) = 1 := by rw [zpow_neg]; norm_num
  push_cast
  rw [min_mul_of_nonneg _ _ hp, max_mul_of_nonneg _ _ hp]
  simp only [scale, q15Min, q15Max, f32One]
  push_cast
  congr 1
  · congr 1
    · ring
    · rw [mul_assoc]; norm_num at ho ⊢
  · rw [mul_assoc]; norm_num at ho ⊢

/-- Rounding stays between integers. -/
theorem isRoundInt_range {tie : TieRule} {c : Rat} {n : Int} (h : IsRoundInt tie c n)
    (lo hi : ℤ) (h1 : (lo:ℚ) ≤ c) (h2 : c ≤ hi) : lo ≤ n ∧ n ≤ hi := by
  rcases h with h | ⟨m, hc, hn⟩
  · rw [abs_lt] at h
    constructor
    · by_contra hh
      have : (n:ℚ) + 1 ≤ lo := by exact_mod_cast (by omega : n + 1 ≤ lo)
      linarith
    · by_contra hh
      have : (hi:ℚ) + 1 ≤ n := by exact_mod_cast (by omega : hi + 1 ≤ n)
      linarith
  · have : lo ≤ m := by
      by_contra hh
      have : (m:ℚ) + 1 ≤ lo := by exact_mod_cast (by omega : m + 1 ≤ lo)
      linarith
    have : m + 1 ≤ hi := by
      by_contra hh
      have : (hi:ℚ) ≤ m := by exact_mod_cast (by omega : hi ≤ m)
      linarith
    have : n = m ∨ n = m + 1 := by
      cases tie <;> dsimp only at hn <;> split_ifs at hn <;> omega
    omega

theorem clampQ_range (s : ℚ) : ((-32768:ℤ):ℚ) ≤ clampQ s ∧ clampQ s ≤ ((32767:ℤ):ℚ) := by
  unfold clampQ
  push_cast
  constructor
  · exact le_min (le_max_right _ _) (by norm_num)
  · exact min_le_right _ _

/-- The number Q2F's word is, for a raw value that is not zero: sign, exponent and fraction in their places (R57). -/
theorem q2fWord_toNat (w : Word) (h : rawInt w ≠ 0) :
    ∃ k, k ≤ 15 ∧ 2^k ≤ (rawInt w).natAbs ∧ (rawInt w).natAbs < 2^(k+1) ∧
      (q2fWord w).toNat = (if rawInt w < 0 then 2^31 else 0) + (k + 112) * 2^23
        + ((rawInt w).natAbs - 2^k) * 2^(23 - k) := by
  have hm : (rawInt w).natAbs ≠ 0 := by omega
  have hr := rawInt_range w
  refine ⟨Nat.log2 (rawInt w).natAbs, ?_, Nat.log2_self_le hm, Nat.lt_log2_self, ?_⟩
  · have : Nat.log2 (rawInt w).natAbs < 16 := (Nat.log2_lt hm).2 (by omega)
    omega
  · have hk : Nat.log2 (rawInt w).natAbs < 16 := (Nat.log2_lt hm).2 (by omega)
    have l1 := Nat.log2_self_le hm
    have l2 : (rawInt w).natAbs < 2 ^ (Nat.log2 (rawInt w).natAbs + 1) := Nat.lt_log2_self
    unfold q2fWord
    rw [q15Operand_eq_rawInt, if_neg h]
    generalize (rawInt w).natAbs.log2 = k at *
    generalize hM : (rawInt w).natAbs = m at *
    have hf : (m - 2^k) * 2^(23-k) < 2^23 := by
      have : m - 2^k < 2^k := by rw [pow_succ] at l2; omega
      calc (m - 2^k) * 2^(23-k)
        _ < 2^k * 2^(23-k) := Nat.mul_lt_mul_of_pos_right this (by positivity)
        _ = 2^23 := by rw [← pow_add]; congr 1; omega
    rw [BitVec.toNat_append, BitVec.toNat_append, BitVec.toNat_ofNat, BitVec.toNat_ofNat,
      Nat.mod_eq_of_lt hf, Nat.mod_eq_of_lt (by omega)]
    rw [← Nat.shiftLeft_add_eq_or_of_lt hf,
      ← Nat.shiftLeft_add_eq_or_of_lt (show k + 112 < 2^8 by omega)]
    simp only [Nat.shiftLeft_eq]
    by_cases hs : rawInt w < 0 <;> simp [hs]
    ring

end Sys2Proof.Machine
end

