-- ==== Sys2Proof/Laws/Decode.lean ====
section
/-!
SUPPORT. Packing and unpacking lose no bit, and the operation code stands in the top bits.
-/

namespace Sys2Proof

/-- Which field a bit of a packed request belongs to. -/
theorem getLsbD_pack (r : Request) (i : Nat) :
    r.pack.getLsbD i =
      if i < 32 then r.b.getLsbD i else if i - 32 < 32 then r.a.getLsbD (i - 32) else r.op.getLsbD (i - 32 - 32) := by
  change ((r.op ++ r.a ++ r.b : BitVec (3 + 32 + 32))).getLsbD i = _
  rw [BitVec.getLsbD_append, BitVec.getLsbD_append]

theorem unpack_pack (r : Request) : Request.unpack r.pack = r := by
  obtain ⟨op, a, b⟩ := r
  simp only [Request.unpack, Request.mk.injEq]
  refine ⟨?_, ?_, ?_⟩ <;> ext i hi
  · simp only [BitVec.getElem_extractLsb', getLsbD_pack]
    rw [if_neg (by omega), if_neg (by omega), show 64 + i - 32 - 32 = i by omega, BitVec.getLsbD_eq_getElem hi]
  · simp [getLsbD_pack, hi]
  · simp [getLsbD_pack, hi]

theorem pack_unpack (w : ReqWord) : (Request.unpack w).pack = w := by
  apply BitVec.eq_of_getLsbD_eq
  intro i hi
  rw [getLsbD_pack]
  simp only [Request.unpack, BitVec.getLsbD_extractLsb']
  split_ifs with h1 h2
  · simp [h1]
  · simp [h2, show 32 + (i - 32) = i by omega]
  · simp [show i - 32 - 32 < 3 by omega, show 64 + (i - 32 - 32) = i by omega]

theorem response_unpack_pack (r : Response) : Response.unpack r.pack = r := by
  obtain ⟨ill, y⟩ := r
  have h : ∀ i, (Response.pack ⟨ill, y⟩).getLsbD i
      = if i < 32 then y.getLsbD i else (BitVec.ofBool ill).getLsbD (i - 32) := by
    intro i
    change ((BitVec.ofBool ill ++ y : BitVec (1 + 32))).getLsbD i = _
    rw [BitVec.getLsbD_append]
  simp only [Response.unpack, Response.mk.injEq]
  refine ⟨?_, ?_⟩
  · rw [h]
    cases ill <;> rfl
  · ext i hi
    simp [h, hi]

end Sys2Proof
end

