-- ==== Sys2Proof/Laws/State.lean ====
section
/-!
SUPPORT. Each field after each update of the state, so that no later proof unfolds a record update.
-/

namespace Sys2Proof.Machine

variable (s : State) (new : Option Response) (r : Response)

@[simp] theorem advance_cfg : (s.advance new).cfg = s.cfg := rfl
@[simp] theorem advance_drives : (s.advance new).drives = s.drives.tail := rfl
@[simp] theorem advance_pipe : (s.advance new).pipe = (shift s.pipe new).2 := rfl
@[simp] theorem advance_rsp : (s.advance new).rsp = (shift s.pipe new).1 := rfl
@[simp] theorem advance_responses :
    (s.advance new).responses = s.responses ++ (shift s.pipe new).1.toList := rfl

theorem respond_eq_advance : s.respond r = s.advance (some r) := rfl
theorem idle_eq_advance : s.idle = s.advance none := rfl

@[simp] theorem respond_cfg : (s.respond r).cfg = s.cfg := rfl
@[simp] theorem respond_drives : (s.respond r).drives = s.drives.tail := rfl
@[simp] theorem respond_pipe : (s.respond r).pipe = (shift s.pipe (some r)).2 := rfl
@[simp] theorem respond_rsp : (s.respond r).rsp = (shift s.pipe (some r)).1 := rfl
@[simp] theorem respond_responses :
    (s.respond r).responses = s.responses ++ (shift s.pipe (some r)).1.toList := rfl

@[simp] theorem idle_cfg : s.idle.cfg = s.cfg := rfl
@[simp] theorem idle_drives : s.idle.drives = s.drives.tail := rfl
@[simp] theorem idle_pipe : s.idle.pipe = (shift s.pipe none).2 := rfl
@[simp] theorem idle_rsp : s.idle.rsp = (shift s.pipe none).1 := rfl
@[simp] theorem idle_responses : s.idle.responses = s.responses ++ (shift s.pipe none).1.toList := rfl

@[simp] theorem resetEdge_cfg : s.resetEdge.cfg = s.cfg := rfl
@[simp] theorem resetEdge_drives : s.resetEdge.drives = s.drives.tail := rfl
@[simp] theorem resetEdge_pipe : s.resetEdge.pipe = s.pipe.map (fun _ => none) := rfl
@[simp] theorem resetEdge_rsp : s.resetEdge.rsp = none := rfl
@[simp] theorem resetEdge_responses : s.resetEdge.responses = s.responses := rfl

@[simp] theorem raise_illegalOp : s.raise .illegalOp = s.respond { ill := true, y := 0x00000000#32 } := rfl

variable (c : Config)

@[simp] theorem resetWith_cfg : (State.resetWith c).cfg = c := rfl
@[simp] theorem resetWith_drives : (State.resetWith c).drives = [] := rfl
@[simp] theorem resetWith_pipe : (State.resetWith c).pipe = List.replicate c.latency none := rfl
@[simp] theorem resetWith_rsp : (State.resetWith c).rsp = none := rfl
@[simp] theorem resetWith_responses : (State.resetWith c).responses = [] := rfl

end Sys2Proof.Machine
end

