-- ==== Sys2Proof/Laws/Ops.lean ====
section
/-!
SUPPORT. What the pipeline and the ports do over one transfer: nothing is lost, nothing is made twice, order is kept.
-/

namespace Sys2Proof.Machine

/-- What leaves the pipeline, then what stays, is what was in it, then what enters. -/
theorem shift_conserves (p : List (Option Response)) (new : Option Response) :
    (shift p new).1.toList ++ (shift p new).2.filterMap id = p.filterMap id ++ new.toList := by
  cases p with
  | nil => simp [shift]
  | cons o rest => cases o <;> cases new <;> simp [shift]

@[simp] theorem shift_length (p : List (Option Response)) (new : Option Response) :
    (shift p new).2.length = p.length := by
  cases p <;> simp [shift]

/-- The stages and what enters, laid in a row, lose their head over one transfer. -/
theorem shift_eq_append (p : List (Option Response)) (new : Option Response) :
    (shift p new).1 :: (shift p new).2 = p ++ [new] := by
  cases p <;> simp [shift]

/-- Over one transfer the responses delivered and in flight gain exactly what enters, at the end. -/
theorem advance_conserves (s : State) (new : Option Response) :
    (s.advance new).responses ++ (s.advance new).inFlight
      = s.responses ++ s.inFlight ++ new.toList := by
  simp only [State.inFlight, advance_responses, advance_pipe, List.append_assoc, shift_conserves]

theorem respond_conserves (s : State) (r : Response) :
    (s.respond r).responses ++ (s.respond r).inFlight = s.responses ++ s.inFlight ++ [r] :=
  advance_conserves s (some r)

theorem idle_conserves (s : State) :
    s.idle.responses ++ s.idle.inFlight = s.responses ++ s.inFlight :=
  (advance_conserves s none).trans (List.append_nil _)

/-- What stands on the port after a transfer is the last response delivered. -/
theorem advance_rsp_last (s : State) (new : Option Response) (r : Response)
    (h : (s.advance new).rsp = some r) : (s.advance new).responses.getLast? = some r := by
  simp only [advance_rsp] at h
  simp [h]

@[simp] theorem resetEdge_inFlight (s : State) : s.resetEdge.inFlight = [] := by
  simp [State.inFlight]

@[simp] theorem resetWith_inFlight (c : Config) : (State.resetWith c).inFlight = [] := by
  simp [State.inFlight]

@[simp] theorem drive_cons (c : Config) (d : Drive) (ds : List Drive) (p : List (Option Response))
    (o : Option Response) (l : List Response) :
    State.drive { cfg := c, drives := d :: ds, pipe := p, rsp := o, responses := l } = d := rfl

theorem drive_of_drives {s : State} {d : Drive} {ds : List Drive} (h : s.drives = d :: ds) :
    s.drive = d := by
  simp [State.drive, h]

@[simp] theorem resets_idle (c : Config) : Drive.idle.resets c = false := rfl
@[simp] theorem accepted_idle (c : Config) : Drive.idle.accepted c = false := rfl
@[simp] theorem resets_ofRequest (c : Config) (r : Request) : (Drive.ofRequest r).resets c = false := rfl
@[simp] theorem accepted_ofRequest (c : Config) (r : Request) : (Drive.ofRequest r).accepted c = true := rfl
@[simp] theorem req_ofRequest (r : Request) : (Drive.ofRequest r).req = r := rfl

theorem accepted_of_not_resets {c : Config} {d : Drive} (h : d.resets c = false) :
    d.accepted c = d.reqValid := by
  simp [Drive.accepted, h]

end Sys2Proof.Machine
end

