-- ==== Sys2Proof/Laws/Exec.lean ====
section
/-!
SUPPORT. Each instruction's meaning as one transfer that delivers its answer, and the three cases of a step.
-/

namespace Sys2Proof.Machine

variable (a b : Word) (s : State)

theorem exec_add : exec (.add a b) s = .next (s.respond (addResponse a b)) := rfl
theorem exec_sub : exec (.sub a b) s = .next (s.respond (subResponse a b)) := rfl
theorem exec_neg : exec (.neg a b) s = .next (s.respond (negResponse a b)) := rfl
theorem exec_mul : exec (.mul a b) s = .next (s.respond (mulResponse a b)) := rfl
theorem exec_f2q : exec (.f2q a b) s = .next (s.respond (f2qResponse s.cfg a b)) := rfl
theorem exec_q2f : exec (.q2f a b) s = .next (s.respond (q2fResponse a b)) := rfl
theorem exec_emul : exec (.emul a b) s = .next (s.respond (emulResponse a b)) := rfl
theorem exec_rsvd7 : exec (.rsvd7 a b) s = .next (s.respond (Exception.response .illegalOp)) := rfl

/-- A step that resets. -/
theorem step_resets {s : State} (h : s.drive.resets s.cfg = true) : step s = .next s.resetEdge := by
  simp [step, h]

/-- A step that accepts a request. -/
theorem step_accepts {s : State} (h : s.drive.accepted s.cfg = true) :
    step s = exec (decode s.drive.req) s := by
  have h' : s.drive.resets s.cfg = false := by
    simp only [Drive.accepted, Bool.and_eq_true, Bool.not_eq_true'] at h
    exact h.2
  simp [step, h, h']

/-- A step with nothing to accept. -/
theorem step_idles {s : State} (h : s.drive.resets s.cfg = false) (h' : s.drive.accepted s.cfg = false) :
    step s = .next s.idle := by
  simp [step, h, h']

/-- Everything a step can do: reset the unit, answer the request on the port, or idle. -/
theorem step_cases {s t : State} (h : step s = .next t) :
    (s.drive.resets s.cfg = true ∧ t = s.resetEdge)
      ∨ (s.drive.accepted s.cfg = true ∧ t = s.respond (reference s.cfg s.drive.req))
      ∨ (s.drive.resets s.cfg = false ∧ s.drive.accepted s.cfg = false ∧ t = s.idle) := by
  unfold step at h
  split_ifs at h with h1 h2
  · cases h
    exact .inl ⟨h1, rfl⟩
  · refine .inr (.inl ⟨h2, ?_⟩)
    unfold reference
    generalize decode s.drive.req = i at h
    cases i <;> (cases h; rfl)
  · cases h
    exact .inr (.inr ⟨by simpa using h1, by simpa using h2, rfl⟩)

/-- A run goes on from the next state of its first step. -/
theorem run_of_step {s t : State} (h : step s = .next t) (n : Nat) :
    core.run (n + 1) s = core.run n t := by
  have h' : core.step s = .next t := h
  simp only [Host.Core.run, h']

end Sys2Proof.Machine
end

