-- ==== Sys2Proof/Laws/PerInstr.lean ====
section
/-!
SUPPORT. What holds of every instruction as syntax: its packed request matches its row of spec/opcode_table.json.
-/

namespace Sys2Proof.Laws.OpcodeRow

/-- The instruction is well formed, and under the table's mask, bits 66:64, its packed request is the row's match,
`op << 64` (R44). -/
def Statement (i : Instr) : Prop :=
  i.wf = true ∧ encode i &&& 0x70000000000000000#67 = BitVec.ofNat 67 (i.op.toNat * 2 ^ 64)

/-- The mask keeps the operation code of a packed request and nothing else. -/
theorem pack_and_mask (r : Request) :
    r.pack &&& 0x70000000000000000#67 = BitVec.ofNat 67 (r.op.toNat * 2 ^ 64) := by
  have hop : (BitVec.ofNat 67 (r.op.toNat * 2 ^ 64)) = (r.op.setWidth 67) <<< 64 := by
    apply BitVec.eq_of_toNat_eq
    have h := r.op.isLt
    simp only [BitVec.toNat_ofNat, BitVec.toNat_shiftLeft, BitVec.toNat_setWidth, Nat.shiftLeft_eq]
    rw [Nat.mod_eq_of_lt (a := r.op.toNat) (by omega)]
  have hmask : (0x70000000000000000#67) = (BitVec.allOnes 3).setWidth 67 <<< 64 := by decide
  rw [hop, hmask]
  apply BitVec.eq_of_getLsbD_eq
  intro i hi
  rw [BitVec.getLsbD_and, getLsbD_pack]
  simp only [BitVec.getLsbD_shiftLeft, BitVec.getLsbD_setWidth, BitVec.getLsbD_allOnes]
  by_cases h : i < 64
  · simp [h]
  · simp [h, hi, show ¬ i < 32 by omega, show ¬ i - 32 < 32 by omega, show i - 32 - 32 = i - 64 by omega,
      show i - 64 < 3 by omega, show i - 64 < 67 by omega]

theorem add (a b : Word) : Statement (.add a b) := ⟨rfl, pack_and_mask _⟩
theorem sub (a b : Word) : Statement (.sub a b) := ⟨rfl, pack_and_mask _⟩
theorem neg (a b : Word) : Statement (.neg a b) := ⟨rfl, pack_and_mask _⟩
theorem mul (a b : Word) : Statement (.mul a b) := ⟨rfl, pack_and_mask _⟩
theorem f2q (a b : Word) : Statement (.f2q a b) := ⟨rfl, pack_and_mask _⟩
theorem q2f (a b : Word) : Statement (.q2f a b) := ⟨rfl, pack_and_mask _⟩
theorem emul (a b : Word) : Statement (.emul a b) := ⟨rfl, pack_and_mask _⟩
theorem rsvd7 (a b : Word) : Statement (.rsvd7 a b) := ⟨rfl, pack_and_mask _⟩

end Sys2Proof.Laws.OpcodeRow
end

