-- ==== Sys2Proof/Tests/Slice0.lean ====
section
/-!
SUPPORT. Tests: expected words are those of spec/95_test_vectors.md (the table is named at each). A witness_ theorem shows
operands and a state that meet the hypotheses of the statement it is named after.
-/

namespace Sys2Proof.Tests

open Sys2Proof Sys2Proof.Machine

/-- A unit with LATENCY 0 and ties away from zero. -/
def awayUnit : State := State.resetWith { Config.default with tie := .away }

/-- A unit of two stages, one of them holding a response, with a reset, a request and an idle drive to come. -/
def pipelined : State :=
  { State.resetWith { Config.default with latency := 2 } with
    drives := [⟨true, true, ⟨0, 1, 1⟩⟩, Drive.ofRequest ⟨7, 0, 0⟩, Drive.idle]
    pipe   := [none, some ⟨false, 5⟩] }

/-- What stands on the response port after an instruction. -/
def shown (o : Host.Outcome State Fault Refusal) : Option Response :=
  match o with
  | .next t    => t.rsp
  | .fault _   => none
  | .refused _ => none

/-! ## Well-formedness and decoding -/

theorem test_wf_accepts_widest_request : reqFits (2 ^ 67 - 1) = true := by decide
theorem test_wf_refuses_bit_67 : reqFits (2 ^ 67) = false := by decide
theorem test_decode_refuses_bit_67_by_name : decodeWord (2 ^ 67) = .error .tooWide := by decide

/-- R41: op 000, a 0x00001234, b 0x0000FFFF, bit by bit. -/
theorem test_decode_add_bits :
    decodeWord 0b000_00000000000000000001001000110100_00000000000000001111111111111111
      = .ok (.add 0x00001234 0x0000FFFF) := by decide
theorem test_decode_sub_bits :
    decodeWord 0b001_00000000000000000001001000110100_00000000000000000000001000110100
      = .ok (.sub 0x00001234 0x00000234) := by decide
theorem test_decode_neg_bits :
    decodeWord 0b010_11011110101011011000000000000000_00000000000000000000000000000000
      = .ok (.neg 0xDEAD8000 0x00000000) := by decide
theorem test_decode_mul_bits :
    decodeWord 0b011_00000000000000000100000000000000_00000000000000000010000000000000
      = .ok (.mul 0x00004000 0x00002000) := by decide
theorem test_decode_f2q_bits :
    decodeWord 0b100_00111111000000000000000000000000_00000000000000000000000000000001
      = .ok (.f2q 0x3F000000 0x00000001) := by decide
theorem test_decode_q2f_bits :
    decodeWord 0b101_00010010001101001000000000000000_00000000000000000000000000000000
      = .ok (.q2f 0x12348000 0x00000000) := by decide
theorem test_decode_emul_bits :
    decodeWord 0b110_00000000000000000111111111111111_00000000000000001000000000000000
      = .ok (.emul 0x00007FFF 0x00008000) := by decide
theorem test_decode_rsvd7_bits :
    decodeWord 0b111_00111111000000000000000000000000_00000000000000000100000000000000
      = .ok (.rsvd7 0x3F000000 0x00004000) := by decide
theorem test_encode_mul : encode (.mul 0x4000 0x4000) = 0x30000400000004000#67 := by decide
theorem test_response_pack : (Response.mk false 0x2000).pack = 0x000002000#33 := by decide

/-! ## Results (V-ADD, V-SUB, V-NEG, V-MUL, V-EMUL, V-F2Q, V-Q2F, V-RSVD) -/

theorem test_add_saturates_ignoring_high_halves :
    shown (exec (.add 0xABCD4000 0x12344000) State.reset) = some ⟨false, 0x00007FFF⟩ := by decide
theorem test_add_negative_overflow :
    shown (exec (.add 0x0000C000 0x0000BFFF) State.reset) = some ⟨false, 0xFFFF8000⟩ := by decide
theorem test_sub_is_not_add_of_neg :
    shown (exec (.sub 0x0000FFFF 0x00008000) State.reset) = some ⟨false, 0x00007FFF⟩ := by decide
theorem test_sub_order_of_operands :
    shown (exec (.sub 0x00008000 0x00000001) State.reset) = some ⟨false, 0xFFFF8000⟩ := by decide
theorem test_neg_of_minimum :
    shown (exec (.neg 0x00008000 0xDEADBEEF) State.reset) = some ⟨false, 0x00007FFF⟩ := by decide
theorem test_neg_of_maximum :
    shown (exec (.neg 0x00007FFF 0x00000000) State.reset) = some ⟨false, 0xFFFF8001⟩ := by decide
theorem test_mul_saturates_after_the_shift :
    shown (exec (.mul 0x00008000 0x00008000) State.reset) = some ⟨false, 0x00007FFF⟩ := by decide
theorem test_mul_negative_tie_rounds_up :
    shown (exec (.mul 0x0000FFFD 0x00004000) State.reset) = some ⟨false, 0xFFFFFFFF⟩ := by decide
theorem test_emul_largest :
    shown (exec (.emul 0x00008000 0x00008000) State.reset) = some ⟨false, 0x40000000⟩ := by decide
theorem test_emul_smallest :
    shown (exec (.emul 0x00007FFF 0x00008000) State.reset) = some ⟨false, 0xC0008000⟩ := by decide
theorem test_f2q_tie_to_even :
    shown (exec (.f2q 0xB7800000 0x00000000) State.reset) = some ⟨false, 0x00000000⟩ := by decide
theorem test_f2q_tie_away :
    shown (exec (.f2q 0xB8A00000 0x00000000) awayUnit) = some ⟨false, 0xFFFFFFFD⟩ := by decide
theorem test_q2f_of_minimum :
    shown (exec (.q2f 0x12348000 0x00000000) State.reset) = some ⟨false, 0xBF800000⟩ := by decide
theorem test_q2f_fraction :
    shown (exec (.q2f 0x0000AAAA 0x00000000) State.reset) = some ⟨false, 0xBF2AAC00⟩ := by decide
theorem test_rsvd7_ignores_a_nan :
    shown (exec (.rsvd7 0x7FC00000 0xFFFFFFFF) State.reset) = some ⟨true, 0x00000000⟩ := by decide

/-! ## The machine -/

/-- The packed request P1 line 2, placed on the port of the reset unit, runs in the next step. -/
theorem test_placed_request_runs :
    shown (step (State.reset.withFetchWord 72 0x30000400000004000)) = some ⟨false, 0x00002000⟩ := by decide

/-- R84: `rst` empties the pipeline. -/
theorem test_reset_edge : pipelined.resetEdge.inFlight = [] ∧ pipelined.inFlight = [⟨false, 5⟩] := by decide

/-- R51, P5 line 1: `%u = MUL Q15_ULP, 0x4000`, request `3_00000001_00004000`. -/
theorem test_listing_line :
    (Line.binary ['u'] .mul .q15Ulp (.literal 0x4000)).request [] = some ⟨3, 0x00000001, 0x00004000⟩ := by decide

/-- R51, R46: a unary line of a bound name puts its word on `a` and zero on `b`. -/
theorem test_listing_unary_line :
    (Line.unary ['n'] .neg (.name ['m'])).request [(['m'], 0xFFFF8000)] = some ⟨2, 0xFFFF8000, 0⟩ := by decide

theorem test_listing_refuses_unbound_name : listingWf [] [.unary ['n'] .neg (.name ['m'])] = false := by decide
theorem test_listing_refuses_second_binding :
    listingWf [] [.unary ['n'] .neg .q15Max, .unary ['n'] .neg .q15Min] = false := by decide
theorem test_listing_refuses_bad_spelling : listingWf [] [.unary ['-'] .neg .q15Max] = false := by decide

/-! ## Witnesses -/

theorem witness_DecodeAndEncodeAgree : (Instr.rsvd7 1 2).wf = true ∧ 2 ^ 67 ≤ 2 ^ 67 := by decide
theorem witness_StepRunsTheDecodedInstruction :
    ({ State.reset with drives := [Drive.ofRequest ⟨7, 1, 2⟩] }).drives = Drive.ofRequest ⟨7, 1, 2⟩ :: []
      ∧ (Drive.ofRequest ⟨7, 1, 2⟩).reqValid = true ∧ (Drive.ofRequest ⟨7, 1, 2⟩).rst = false
      ∧ State.reset.cfg.latency = 0 := by decide
/-- The other case of its hypothesis: `rst = 1` with a request, LATENCY 0 (log entry 5). -/
theorem witness_StepRunsTheDecodedInstruction_rst :
    ({ State.reset with drives := [⟨true, true, ⟨7, 1, 2⟩⟩] }).drives = ⟨true, true, ⟨7, 1, 2⟩⟩ :: []
      ∧ (Drive.mk true true ⟨7, 1, 2⟩).reqValid = true ∧ ¬(Drive.mk true true ⟨7, 1, 2⟩).rst = false
      ∧ State.reset.cfg.latency = 0 := by decide
theorem witness_PlacedInstructionRunsNext :
    decodeTableWord 72 0x7FFFFFFFFFFFFFFFF = some (.rsvd7 0xFFFFFFFF 0xFFFFFFFF) := by decide
theorem witness_IdleTransferOnlyDrains_empty : State.reset.drives = [] := by decide
theorem witness_IdleTransferOnlyDrains_invalid :
    ∃ r ds, ({ pipelined with drives := [Drive.idle] }).drives = ⟨false, false, r⟩ :: ds := ⟨_, _, rfl⟩
theorem witness_ResetEdgeDropsRequestsInFlight :
    pipelined.drives = ⟨true, true, ⟨0, 1, 1⟩⟩ :: ⟨false, true, ⟨7, 0, 0⟩⟩ :: [Drive.idle] ∧ 0 < pipelined.cfg.latency := by decide
theorem witness_ResetPinAbsentAtLatencyZero : State.reset.cfg.latency = 0 := by decide
theorem witness_ExecFrame : ∃ t, exec (.f2q 0x3F000000 0) pipelined = .next t := ⟨_, rfl⟩
/-- Two units that differ in pipeline, drives and LATENCY and agree on the other parameters. -/
theorem witness_ResponseDependsOnRequestAlone :
    State.reset.cfg.tie = pipelined.cfg.tie ∧ State.reset.cfg.nonfinite = pipelined.cfg.nonfinite
      ∧ State.reset ≠ pipelined := by decide
theorem witness_ParametersMatterToF2qAlone : (Instr.q2f 0 0).op ≠ 4 ∧ State.reset.cfg ≠ awayUnit.cfg := by decide
theorem witness_IgnoredBitsChangeNothing :
    (0xABCD4000 : Word).extractLsb' 0 16 = (0x00004000 : Word).extractLsb' 0 16 ∧ (0xABCD4000 : Word) ≠ 0x00004000 := by
  decide
theorem witness_NoStepChangesTheParameters_reset : ∃ t, step pipelined = .next t ∧ t.rsp = none := ⟨_, rfl, rfl⟩
theorem witness_DeliveredResponsesOnlyGrow :
    ∃ t, step { pipelined with drives := [], pipe := [some ⟨false, 5⟩, none] } = .next t
      ∧ t.responses = [⟨false, 5⟩] := ⟨_, rfl, rfl⟩
theorem witness_SaturationInvariant : (Instr.f2q 0x7F800000 0).op.toNat < 5 := by decide
/-- Each clause of F2Q's statement: a finite operand that is a tie, a NaN, and the infinities (equations on `a`). -/
theorem witness_F2qScalesClampsAndRounds_tie : f32Value 0x37800000 = some ((2 : Rat) ^ (-16 : Int)) := by
  rw [f32Value_of_finite _ (2 ^ 133) (by decide)]
  norm_num
theorem witness_F2qScalesClampsAndRounds_nan : isNaN 0xFF800001 = true ∧ isNaN 0x7F800000 = false := by decide
theorem witness_F2qNonFiniteDefaultPolicy :
    State.reset.cfg.nonfinite = NonFinite.default ∧ isNaN 0x7FC00000 = true := by decide
theorem witness_Q2fIsExact_clauses : rawInt 0xABCD0000 = 0 ∧ rawInt 0xFFFF8000 = -32768 := by decide
theorem witness_MulSaturatesOnOnePairOnly :
    rawInt 0x00008000 = -32768 ∧ ¬(rawInt 0x00008000 = -32768 ∧ rawInt 0x00008001 = -32768) := by decide
theorem witness_AddSubNegLaws_clauses :
    rawInt 0xFFFF ≠ -32768 ∧ rawInt 0x8000 = -32768 ∧ ¬0 ≤ rawInt 0xFFFF
      ∧ rawInt 0xC000 + rawInt 0xC000 = -32768 ∧ rawInt 0xFFFF - rawInt 0x8000 = 32767
      ∧ rawInt 0x8000 ≤ rawInt 0x7FFF := by decide
/-- 1 − 2⁻¹⁵ is returned by the round trip, whatever the parameters. -/
theorem witness_ConversionRoundTrip :
    f32Value 0x3F7FFE00 = some (1 - (2 : Rat) ^ (-15 : Int))
      ∧ (answer Config.default (.q2f (answer Config.default (.f2q 0x3F7FFE00 0)).y 0)).y = 0x3F7FFE00 :=
  ⟨by rw [f32Value_of_finite _ (32767 * 2 ^ 134) (by decide)]; norm_num, by decide⟩
/-- The three clauses: the largest value below 2⁻¹⁶, 1 − 2⁻¹⁵ itself, −1 itself. -/
theorem witness_F2qCornerCases_below_half :
    ∃ v, f32Value 0x377FFFFF = some v ∧ |v| < (2 : Rat) ^ (-16 : Int) :=
  ⟨_, f32Value_of_finite _ ((2 ^ 24 - 1) * 2 ^ 109) (by decide), by norm_num [abs_lt]⟩
theorem witness_F2qCornerCases_top :
    ∃ v, f32Value 0x3F7FFE00 = some v ∧ 1 - (2 : Rat) ^ (-15 : Int) ≤ v :=
  ⟨_, f32Value_of_finite _ (32767 * 2 ^ 134) (by decide), by norm_num⟩
theorem witness_F2qCornerCases_bottom : ∃ v, f32Value 0xBF800000 = some v ∧ v ≤ -1 :=
  ⟨_, f32Value_of_finite _ (-(2 ^ 149)) (by decide), by norm_num⟩
theorem witness_F2qIsMonotone :
    ∃ v v', f32Value 0xBF800000 = some v ∧ f32Value 0x37800000 = some v' ∧ v ≤ v' :=
  ⟨_, _, f32Value_of_finite _ (-(2 ^ 149)) (by decide), f32Value_of_finite _ (2 ^ 133) (by decide), by norm_num⟩
/-- One word is a tie, the other is not; the two units differ in the tie rule alone. -/
theorem witness_TieRulesDifferOnTiesAlone :
    State.reset.cfg.nonfinite = awayUnit.cfg.nonfinite ∧ State.reset.cfg.tie ≠ awayUnit.cfg.tie := by decide
theorem witness_TieRulesDifferOnTiesAlone_no_tie :
    f32Value 0x38000000 = some ((2 : Rat) ^ (-15 : Int))
      ∧ ∀ m : Int, clampQ ((2 : Rat) ^ (-15 : Int) * 32768) ≠ m + 1 / 2 := by
  refine ⟨by rw [f32Value_of_finite _ (2 ^ 134) (by decide)]; norm_num, fun m h => ?_⟩
  have h1 : clampQ ((2 : Rat) ^ (-15 : Int) * 32768) = 1 := by norm_num [clampQ]
  rw [h1] at h
  have h2 : (2 : Rat) * m = 1 := by linarith
  have h3 : 2 * m = 1 := by exact_mod_cast h2
  omega
theorem witness_StepKeepsInvariant : pipelined.Inv ∧ ∃ t, step pipelined = .next t := ⟨by decide, _, rfl⟩
theorem witness_RunAnswersEachRequestOnceInOrder :
    ∀ d ∈ [Drive.ofRequest ⟨0, 1, 1⟩, Drive.idle], d.resets pipelined.cfg = false := by decide
theorem witness_RunEndsWithEveryRequestAnswered : pipelined.pipe.length = pipelined.cfg.latency := by decide
theorem witness_ResponseStandsAfterLatency :
    ∃ t, exec (.add 1 1) pipelined = .next t ∧ ∀ d ∈ t.drives.take pipelined.cfg.latency, d.resets pipelined.cfg = false :=
  ⟨_, rfl, by decide⟩
theorem witness_ListingLinePlacesOperands :
    (Operand.name ['h']).word [(['h'], 0x4000)] = some 0x4000
      ∧ Operand.q15Min.word [(['h'], 0x4000)] = some 0x8000 := by decide
theorem witness_WellFormedListingRuns :
    listingWf [] [.unary ['h'] .f2q (.literal 0x3F000000), .binary ['q'] .mul (.name ['h']) (.name ['h'])] = true := by
  decide

end Sys2Proof.Tests
end

/-!
Family 00_scope.md: what one instruction does to a unit, as one transfer that delivers `answer`, and where the
parameters of R8 come in.
-/

namespace Sys2Proof.Machine

/-- An instruction is one transfer that delivers the reference function's answer, and nothing else (R93). -/
theorem exec_eq_respond_answer (s : State) : ∀ i : Instr, exec i s = .next (s.respond (answer s.cfg i))
  | .add a b   => exec_add a b s
  | .sub a b   => exec_sub a b s
  | .neg a b   => exec_neg a b s
  | .mul a b   => exec_mul a b s
  | .f2q a b   => exec_f2q a b s
  | .q2f a b   => exec_q2f a b s
  | .emul a b  => exec_emul a b s
  | .rsvd7 a b => exec_rsvd7 a b s

/-- The only next state an instruction has. -/
theorem eq_respond_answer_of_exec {i : Instr} {s t : State} (h : exec i s = .next t) :
    t = s.respond (answer s.cfg i) :=
  (Host.Outcome.next.inj ((exec_eq_respond_answer s i).symm.trans h)).symm

/-- The port and the stages after an answered request, laid in a row, are the stages before and the new response. -/
theorem respond_rsp_cons_pipe (s : State) (r : Response) :
    (s.respond r).rsp :: (s.respond r).pipe = s.pipe ++ [some r] :=
  shift_eq_append s.pipe (some r)

/-- Only F2Q's answer reads the parameters (R8, R54, R55). -/
theorem answer_eq_of_op_ne_four (c c' : Config) {i : Instr} (h : i.op ≠ 4) : answer c i = answer c' i := by
  cases i with
  | f2q a b => exact absurd rfl h
  | _ => rfl

/-- Settles O24: the next state is `s.respond` of the answer, and each clause is a law of that one transfer. -/
theorem execFrame : Obligations.ExecFrame := by
  intro i s t h
  obtain rfl := eq_respond_answer_of_exec h
  exact ⟨respond_cfg s _, respond_drives s _, shift_length s.pipe _, respond_rsp_cons_pipe s _,
    respond_responses s _, respond_conserves s _⟩

/-- Settles O12: `State.reset` is `State.resetWith` of the default parameters, whose LATENCY 0 leaves no stage. -/
theorem resetState : Obligations.ResetState :=
  ⟨rfl, resetWith_drives _, resetWith_pipe _, resetWith_rsp _, resetWith_responses _⟩

/-- Settles O28: both units answer as the reference function does on the first unit's parameters. -/
theorem parametersMatterToF2qAlone : Obligations.ParametersMatterToF2qAlone := by
  intro i s s' h
  refine ⟨answer s.cfg i, exec_eq_respond_answer s i, ?_⟩
  rw [answer_eq_of_op_ne_four s.cfg s'.cfg h]
  exact exec_eq_respond_answer s' i

end Sys2Proof.Machine

/-!
Family 10_state.md: the invariant through reset and every step, what an idle transfer and any step leave as they are,
and the words that carry a Q15 result.
-/

namespace Sys2Proof.Machine

/-! ## The invariant -/

/-- A response of an operation that never faults has the form of R42. -/
@[simp] theorem responseWf_normalResponse (y : Word) : responseWf (normalResponse y) = true := rfl

/-- The reference function answers in the form of R42: `ill = 1` comes from the reserved code alone, with `y = 0`. -/
theorem responseWf_answer (c : Config) : ∀ i : Instr, responseWf (answer c i) = true
  | .add _ _ | .sub _ _ | .neg _ _ | .mul _ _ | .f2q _ _ | .q2f _ _ | .emul _ _ => responseWf_normalResponse _
  | .rsvd7 _ _ => rfl

theorem responseWf_reference (c : Config) (r : Request) : responseWf (reference c r) = true :=
  responseWf_answer c (decode r)

/-- A transfer keeps the invariant when what enters the pipeline has the form of R42: by `advance_conserves`, that is
the only response it can add. -/
theorem inv_advance {s : State} {new : Option Response} (h : s.Inv) (hnew : ∀ r ∈ new, responseWf r = true) :
    (s.advance new).Inv := by
  obtain ⟨hlen, -, hwf⟩ := h
  refine ⟨(shift_length s.pipe new).trans hlen, advance_rsp_last s new, fun r hr => ?_⟩
  rw [advance_conserves, List.mem_append, Option.mem_toList] at hr
  exact hr.elim (hwf r) (hnew r)

/-- A reset edge keeps the invariant: it keeps the number of stages, shows nothing and adds no response (R84). -/
theorem inv_resetEdge {s : State} (h : s.Inv) : s.resetEdge.Inv := by
  obtain ⟨hlen, -, hwf⟩ := h
  refine ⟨by simpa using hlen, by simp, fun r hr => hwf r (List.mem_append_left _ ?_)⟩
  simpa using hr

/-- A unit right after reset has LATENCY stages and no response, shown, in flight or delivered (R29, R84). -/
theorem inv_resetWith (c : Config) : (State.resetWith c).Inv :=
  ⟨List.length_replicate, by simp, by simp⟩

/-- Settles O43: of the three things a step can do, two are transfers, and what enters is the reference function's
answer or nothing; the third is a reset edge. -/
theorem stepKeepsInvariant : Obligations.StepKeepsInvariant := by
  intro s t hinv hstep
  obtain ⟨-, rfl⟩ | ⟨-, rfl⟩ | ⟨-, -, rfl⟩ := step_cases hstep
  · exact inv_resetEdge hinv
  · exact inv_advance hinv (by simp [responseWf_reference])
  · exact inv_advance hinv (by simp)

/-- Settles O42: `State.reset` is `State.resetWith` of the default parameters. -/
theorem invariantAtReset : Obligations.InvariantAtReset :=
  ⟨fun c => ⟨inv_resetWith c, resetWith_rsp c, resetWith_inFlight c, resetWith_responses c⟩, inv_resetWith _⟩

/-! ## What a step leaves as it is -/

/-- With no request and no reset on the port, or nothing driven, the step idles. -/
theorem step_eq_idle {s : State} (h : s.drives = [] ∨ ∃ r ds, s.drives = ⟨false, false, r⟩ :: ds) :
    step s = .next s.idle := by
  obtain hnil | ⟨r, ds, hcons⟩ := h
  · have hdrive : s.drive = Drive.idle := by simp [State.drive, hnil]
    exact step_idles (by simp [hdrive]) (by simp [hdrive])
  · have hdrive := drive_of_drives hcons
    exact step_idles (by simp [hdrive, Drive.resets]) (by simp [hdrive, Drive.accepted])

/-- Settles O9: the step is `State.idle`, whose laws are the clauses. -/
theorem idleTransferOnlyDrains : Obligations.IdleTransferOnlyDrains := by
  intro s h
  exact ⟨s.idle, step_eq_idle h, idle_cfg s, idle_drives s, shift_eq_append s.pipe none, idle_conserves s,
    idle_responses s⟩

/-- Settles O30, in each of the three things a step can do. -/
theorem noStepChangesTheParameters : Obligations.NoStepChangesTheParameters := by
  intro s t hstep
  obtain ⟨-, rfl⟩ | ⟨-, rfl⟩ | ⟨-, -, rfl⟩ := step_cases hstep
  · exact ⟨resetEdge_cfg s, List.length_map _, resetEdge_drives s⟩
  · exact ⟨respond_cfg s _, shift_length s.pipe _, respond_drives s _⟩
  · exact ⟨idle_cfg s, shift_length s.pipe _, idle_drives s⟩

/-! ## Q15 results (R14, R21, R69) -/

/-- Sign extension keeps the number a raw value denotes. -/
theorem toInt_q15Word (r : Raw) : (q15Word r).toInt = r.toInt :=
  BitVec.toInt_signExtend_of_le (by decide)

/-- The low half of the word of a raw value is that raw value. -/
theorem setWidth_q15Word (r : Raw) : (q15Word r).setWidth 16 = r := by
  apply BitVec.eq_of_toInt_eq
  rw [BitVec.setWidth_eq_extractLsb' (by decide)]
  exact (q15Operand_eq_rawInt _).trans (rawInt_q15Word r)

/-- F2Q's result is the word of a raw value in each class of R17: rounded, or the policy's of R55. -/
theorem f2qWord_eq_q15Word (c : Config) (a : Word) : ∃ r, f2qWord c a = q15Word r := by
  unfold f2qWord
  cases f32Class a with
  | finite n => exact ⟨_, rfl⟩
  | posInf   => exact ⟨_, rfl⟩
  | negInf   => exact ⟨_, rfl⟩
  | nan      => exact ⟨_, rfl⟩

/-- ADD, SUB, NEG, MUL and F2Q, the codes below 5, answer with the word of a raw value. -/
theorem answer_eq_q15Word (c : Config) {i : Instr} (h : i.op.toNat < 5) : ∃ r, answer c i = ⟨false, q15Word r⟩ := by
  cases i with
  | add a b => exact ⟨_, rfl⟩
  | sub a b => exact ⟨_, rfl⟩
  | neg a b => exact ⟨_, rfl⟩
  | mul a b => exact ⟨_, rfl⟩
  | f2q a b => exact (f2qWord_eq_q15Word c a).imp fun _ hr => congrArg normalResponse hr
  | q2f a b | emul a b | rsvd7 a b => simp [Instr.op] at h

/-- Settles O32: the result is the word of a raw value, so its low half is that raw value, and what the spec reads in
it as an operand, which lies in the 16-bit range, is what it denotes. -/
theorem saturationInvariant : Obligations.SaturationInvariant := by
  intro i s hop
  obtain ⟨r, hr⟩ := answer_eq_q15Word s.cfg hop
  have hraw : rawInt (q15Word r) = (q15Word r).toInt := (rawInt_q15Word r).trans (toInt_q15Word r).symm
  obtain ⟨hlo, hhi⟩ := rawInt_range (q15Word r)
  rw [hraw] at hlo hhi
  refine ⟨q15Word r, hr ▸ exec_eq_respond_answer s i, ?_, hlo, hhi, hraw⟩
  rw [setWidth_q15Word, q15Word]

end Sys2Proof.Machine

/-!
Family 20_memory.md: one response for each request, in order, and what a response depends on.
-/

namespace Sys2Proof.Machine

/-! ## One response for each accepted request (R38) -/

/-- What a drive puts into the pipeline: the reference function's response to its request where the unit accepts one,
nothing otherwise (R38, R40, R93). -/
def Drive.response? (c : Config) (d : Drive) : Option Response :=
  if d.accepted c then some (reference c d.req) else none

/-- Short of a reset, a step is one transfer, entered by the response to the drive on the port. -/
theorem step_eq_advance_response {s : State} (h : s.drive.resets s.cfg = false) :
    step s = .next (s.advance (s.drive.response? s.cfg)) := by
  unfold Drive.response?
  split_ifs with hacc
  · exact (step_accepts hacc).trans (exec_eq_respond_answer s _)
  · exact step_idles h (by simpa using hacc)

/-- The responses due to a list of drives are the first drive's, if any, and then those due to the rest. -/
theorem map_reference_acceptedRequests_cons (c : Config) (d : Drive) (ds : List Drive) :
    (acceptedRequests c (d :: ds)).map (reference c)
      = (d.response? c).toList ++ (acceptedRequests c ds).map (reference c) := by
  by_cases hacc : d.accepted c = true <;> simp [acceptedRequests, Drive.response?, hacc]

/-- Over drives that do not reset the unit, a run gains exactly the responses due to them, in order: each step conserves
what is delivered and in flight and adds the response of its own drive. -/
theorem run_gains_accepted_responses (ds rest : List Drive) (s : State) (hdrives : s.drives = ds ++ rest)
    (hresets : ∀ d ∈ ds, d.resets s.cfg = false) :
    ∃ t, core.run ds.length s = .next t ∧ t.cfg = s.cfg ∧ t.drives = rest
      ∧ t.responses ++ t.inFlight
          = s.responses ++ s.inFlight ++ (acceptedRequests s.cfg ds).map (reference s.cfg) := by
  induction ds generalizing s with
  | nil => exact ⟨s, rfl, rfl, hdrives, (List.append_nil _).symm⟩
  | cons d ds ih =>
    obtain ⟨hd, hds⟩ := List.forall_mem_cons.mp hresets
    have hdrive : s.drive = d := drive_of_drives hdrives
    have hstep : step s = .next (s.advance (d.response? s.cfg)) := by
      rw [← hdrive] at hd ⊢
      exact step_eq_advance_response hd
    obtain ⟨t, hrun, hcfg, hrest, hgain⟩ := ih (s.advance (d.response? s.cfg)) (by simp [hdrives]) hds
    refine ⟨t, (run_of_step hstep ds.length).trans hrun, hcfg, hrest, ?_⟩
    rw [hgain, advance_conserves, advance_cfg, map_reference_acceptedRequests_cons, List.append_assoc]

/-- Settles O44, by induction on the drives (`run_gains_accepted_responses`). -/
theorem runAnswersEachRequestOnceInOrder : Obligations.RunAnswersEachRequestOnceInOrder := by
  intro s ds rest hresets
  exact run_gains_accepted_responses ds rest { s with drives := ds ++ rest } rfl hresets

/-- Settles O31, in each of the three things a step can do: a transfer delivers what it shows, a reset edge shows
nothing. -/
theorem deliveredResponsesOnlyGrow : Obligations.DeliveredResponsesOnlyGrow := by
  intro s t hstep
  obtain ⟨-, rfl⟩ | ⟨-, rfl⟩ | ⟨-, -, rfl⟩ := step_cases hstep
  · exact (List.append_nil _).symm
  · exact respond_responses s _
  · exact idle_responses s

/-! ## What a step and a response depend on (R38, R40) -/

/-- Settles O8: whether the step resets or idles is read from `rst` alone, and neither reads the request fields. -/
theorem invalidRequestFieldsChangeNothing : Obligations.InvalidRequestFieldsChangeNothing := by
  intro s rst r r' ds
  cases hrst : Drive.resets s.cfg ⟨rst, false, r⟩ with
  | true =>
    have hstep' := step_resets (s := { s with drives := ⟨rst, false, r'⟩ :: ds }) hrst
    exact (step_resets hrst).trans hstep'.symm
  | false =>
    have hstep' := step_idles (s := { s with drives := ⟨rst, false, r'⟩ :: ds }) hrst rfl
    exact (step_idles hrst rfl).trans hstep'.symm

/-- F2Q's result reads no parameter but `F2Q_TIE` and `F2Q_NONFINITE` (R53, R55). -/
theorem f2qWord_congr {c c' : Config} (htie : c.tie = c'.tie) (hnonfinite : c.nonfinite = c'.nonfinite) (a : Word) :
    f2qWord c a = f2qWord c' a := by
  simp only [f2qWord, htie, hnonfinite]

/-- Units that agree on `F2Q_TIE` and `F2Q_NONFINITE` have the same reference function, whatever their LATENCY. -/
theorem answer_congr {c c' : Config} (htie : c.tie = c'.tie) (hnonfinite : c.nonfinite = c'.nonfinite) (i : Instr) :
    answer c i = answer c' i := by
  cases i with
  | f2q a b => exact congrArg normalResponse (f2qWord_congr htie hnonfinite a)
  | _ => rfl

/-- Settles O27: both units answer as the reference function does on the first unit's parameters. -/
theorem responseDependsOnRequestAlone : Obligations.ResponseDependsOnRequestAlone := by
  intro i s s' htie hnonfinite
  refine ⟨answer s.cfg i, exec_eq_respond_answer s i, ?_⟩
  rw [answer_congr htie hnonfinite i]
  exact exec_eq_respond_answer s' i

end Sys2Proof.Machine

/-!
Family 30_encoding.md: the packed request and response, the opcode map, what the operations ignore, and request lists.
-/

namespace Sys2Proof

/-! ## The opcode map and the packed request (R41, R43, R44, R49) -/

@[simp] theorem decode_wordA (r : Request) : (decode r).wordA = r.a := by
  unfold decode
  split <;> rfl

@[simp] theorem decode_wordB (r : Request) : (decode r).wordB = r.b := by
  unfold decode
  split <;> rfl

/-- In each of the eight codes of R44. -/
@[simp] theorem decode_op (r : Request) : (decode r).op = r.op := by
  obtain ⟨⟨⟨code, hcode⟩⟩, a, b⟩ := r
  interval_cases code <;> rfl

/-- Decoding loses no field of a request. -/
theorem request_decode (r : Request) : (decode r).request = r := by
  simp [Instr.request]

theorem decode_request (i : Instr) : decode i.request = i := by
  cases i <;> rfl

/-- No 67-bit word is rejected (R43). -/
theorem decodeWord_toNat (w : ReqWord) : decodeWord w.toNat = .ok (decode (Request.unpack w)) := by
  simp [decodeWord, reqFits, w.isLt]

theorem decodeWord_encode (i : Instr) : decodeWord (encode i).toNat = .ok i := by
  rw [decodeWord_toNat, encode, unpack_pack, decode_request]

theorem encode_decode_unpack (w : ReqWord) : encode (decode (Request.unpack w)) = w := by
  rw [encode, request_decode, pack_unpack]

/-- A number with a bit above bit 66 is no request (R41, R49). -/
theorem decodeWord_of_ge {n : Nat} (h : 2 ^ 67 ≤ n) : decodeWord n = .error .tooWide := by
  have hfits : reqFits n = false := decide_eq_false (Nat.not_lt.mpr h)
  rw [decodeWord, hfits]
  rfl

/-- Settles O3: packing and unpacking are inverse (`unpack_pack`, `pack_unpack`), and so are the opcode map and the
request of an instruction. -/
theorem decodeAndEncodeAgree : Obligations.DecodeAndEncodeAgree :=
  ⟨fun i _ => decodeWord_encode i, fun w => ⟨_, decodeWord_toNat w, encode_decode_unpack w⟩,
    fun _ => decodeWord_of_ge⟩

/-- Settles O1: each of the eight words is a fixed number, which the decoder is run on. -/
theorem specWordsDecode : Obligations.SpecWordsDecode := by
  refine ⟨?_, ?_, ?_, ?_, ?_, ?_, ?_, ?_⟩ <;> decide

/-- Settles O2: each request is that of the instruction it decodes to. -/
theorem opcodeMapSelectsOnOpAlone : Obligations.OpcodeMapSelectsOnOpAlone := fun a b =>
  ⟨decode_request (.add a b), decode_request (.sub a b), decode_request (.neg a b), decode_request (.mul a b),
    decode_request (.f2q a b), decode_request (.q2f a b), decode_request (.emul a b), decode_request (.rsvd7 a b)⟩

/-- What `decodeTableWord` reads, it reads from the low 67 bits. -/
theorem decode_unpack_of_decodeTableWord {nbits w : Nat} {i : Instr} (h : decodeTableWord nbits w = some i) :
    decode (Request.unpack (BitVec.ofNat 67 w)) = i := by
  unfold decodeTableWord decodeWord at h
  cases hfits : reqFits w with
  | true => simpa [hfits] using h
  | false => simp [hfits] at h

/-! ## The packed response (R42) -/

/-- A packed response is the number `ill × 2³² + y`. -/
theorem response_pack_toNat (r : Response) : r.pack.toNat = (if r.ill then 2 ^ 32 else 0) + r.y.toNat := by
  have hsum : r.pack.toNat = (BitVec.ofBool r.ill).toNat <<< 32 + r.y.toNat := by
    rw [Nat.shiftLeft_add_eq_or_of_lt r.y.isLt]
    exact BitVec.toNat_append _ _
  rw [hsum]
  cases r.ill <;> simp

/-- Bit 32 and the 32 bits below it are the whole of a packed response. -/
theorem response_pack_unpack (w : RspWord) : (Response.unpack w).pack = w := by
  have hlt := w.isLt
  apply BitVec.eq_of_toNat_eq
  rw [response_pack_toNat]
  simp only [Response.unpack, BitVec.getLsbD, Nat.testBit_eq_decide_div_mod_eq, decide_eq_true_eq,
    BitVec.extractLsb'_toNat, Nat.shiftRight_zero]
  split_ifs <;> omega

end Sys2Proof

namespace Sys2Proof.Machine

/-! ## The reserved code (R47, R71, R73) -/

/-- `ill = 1` exactly for `op = 7`. -/
theorem answer_ill_iff (c : Config) (i : Instr) : (answer c i).ill = true ↔ i.op = 7 := by
  cases i with
  | rsvd7 a b => exact iff_of_true rfl rfl
  | _ => exact iff_of_false Bool.false_ne_true (by simp [Instr.op])

/-- With `ill = 1` the form of R42 leaves one response. -/
theorem answer_of_ill {c : Config} {i : Instr} (h : (answer c i).ill = true) : answer c i = ⟨true, 0x00000000⟩ := by
  have hy : (answer c i).y = 0x00000000 := by simpa [responseWf, h] using responseWf_answer c i
  calc answer c i = ⟨(answer c i).ill, (answer c i).y⟩ := rfl
    _ = ⟨true, 0x00000000⟩ := by rw [h, hy]

/-- Settles O4: the pair goes through its packed word whole, and `1_00000000` is the one answer with `ill = 1`
(`answer_of_ill`). -/
theorem responsePackingIsLossless : Obligations.ResponsePackingIsLossless := by
  refine ⟨fun r => ⟨response_pack_toNat r, response_unpack_pack r⟩, response_pack_unpack, fun c i h => ?_⟩
  rw [answer_of_ill h]
  decide

/-- Settles O25: exec delivers the reference function's answer, whose `ill` is 1 for the reserved code alone. -/
theorem illExactlyOnReservedCode : Obligations.IllExactlyOnReservedCode := fun i s =>
  ⟨answer s.cfg i, exec_eq_respond_answer s i, answer_ill_iff s.cfg i,
    fun hop => congrArg Response.y (answer_of_ill ((answer_ill_iff s.cfg i).mpr hop))⟩

/-- Settles O22, by the reserved code's arm of exec. -/
theorem reservedCodeAnswersIllegalOp : Obligations.ReservedCodeAnswersIllegalOp := fun a b s =>
  ⟨exec_rsvd7 a b s, by decide⟩

/-! ## The step -/

/-- A reset edge, an answered request and an idle transfer all have a next state. -/
theorem step_answers_next (s : State) : ∃ t, step s = .next t := by
  cases hresets : s.drive.resets s.cfg with
  | true => exact ⟨_, step_resets hresets⟩
  | false => exact ⟨_, step_eq_advance_response hresets⟩

/-- Settles O5: no 67-bit word is rejected, and every step is a reset edge or a transfer. -/
theorem everyStepAnswersNext : Obligations.EveryStepAnswersNext :=
  ⟨fun w => ⟨_, decodeWord_toNat w⟩, step_answers_next⟩

/-- Settles O7: the placed request is on the port, where the unit accepts it, and it decodes to the instruction. -/
theorem placedInstructionRunsNext : Obligations.PlacedInstructionRunsNext := by
  intro s nbits w i h
  have hstep : step (s.withFetchWord nbits w) = _ := step_accepts (accepted_ofRequest _ _)
  refine ⟨hstep.trans ?_, rfl, rfl⟩
  exact congrArg (exec · _) (decode_unpack_of_decodeTableWord h)

/-! ## The bits an operation ignores (R45, R46) -/

/-- A Q15 operand is read from the low half of its word alone. -/
theorem q15Operand_congr {w w' : Word} (h : w.extractLsb' 0 16 = w'.extractLsb' 0 16) :
    q15Operand w = q15Operand w' :=
  congrArg BitVec.toInt h

/-- The answers to ADD, SUB, MUL and EMUL are functions of the two Q15 operands. -/
theorem answer_binary_congr (c : Config) {a a' b b' : Word} (ha : q15Operand a = q15Operand a')
    (hb : q15Operand b = q15Operand b') :
    answer c (.add a b) = answer c (.add a' b') ∧ answer c (.sub a b) = answer c (.sub a' b')
      ∧ answer c (.mul a b) = answer c (.mul a' b') ∧ answer c (.emul a b) = answer c (.emul a' b') := by
  have hemul : emulRaw a b = emulRaw a' b' := congrArg₂ (· * ·) ha hb
  refine ⟨?_, ?_, ?_, ?_⟩
  · simp only [answer, addResponse, addRaw, ha, hb]
  · simp only [answer, subResponse, subRaw, ha, hb]
  · simp only [answer, mulResponse, mulRaw, mulShifted, hemul]
  · simp only [answer, emulResponse, hemul]

/-- The answers to NEG and Q2F are functions of the one Q15 operand. -/
theorem answer_unary_congr (c : Config) {a a' : Word} (b b' : Word) (ha : q15Operand a = q15Operand a') :
    answer c (.neg a b) = answer c (.neg a' b') ∧ answer c (.q2f a b) = answer c (.q2f a' b') := by
  constructor
  · simp only [answer, negResponse, negRaw, ha]
  · simp only [answer, q2fResponse, q2fWord, ha]

/-- Instructions that the reference function answers alike do the same. -/
theorem exec_congr {i j : Instr} {s : State} (h : answer s.cfg i = answer s.cfg j) : exec i s = exec j s := by
  rw [exec_eq_respond_answer, exec_eq_respond_answer, h]

/-- Settles O29: exec does what the answer says (`exec_congr`), and the answer reads the low halves of Q15 operands
only, no `b` of F2Q and neither operand of the reserved code. -/
theorem ignoredBitsChangeNothing : Obligations.IgnoredBitsChangeNothing := by
  intro a a' b b' s ha
  have ha' := q15Operand_congr ha
  obtain ⟨hneg, hq2f⟩ := answer_unary_congr s.cfg b b' ha'
  refine ⟨fun hb => ?_, exec_congr hneg, exec_congr hq2f, exec_congr rfl, fun x => exec_congr rfl⟩
  obtain ⟨hadd, hsub, hmul, hemul⟩ := answer_binary_congr s.cfg ha' (q15Operand_congr hb)
  exact ⟨exec_congr hadd, exec_congr hsub, exec_congr hmul, exec_congr hemul⟩

/-! ## Lines of a listing (R51) -/

theorem request_unary {env : Bindings} {x : Operand} {a : Word} (n : HostName) (op : UnaryOp)
    (hx : x.word env = some a) : (Line.unary n op x).request env = some ⟨op.code, a, 0⟩ := by
  simp [Line.request, hx]

theorem request_binary {env : Bindings} {x y : Operand} {a b : Word} (n : HostName) (op : BinaryOp)
    (hx : x.word env = some a) (hy : y.word env = some b) :
    (Line.binary n op x y).request env = some ⟨op.code, a, b⟩ := by
  simp [Line.request, hx, hy]

/-- Settles O47: the request of a line by its number of operands, and the word of each kind of operand. -/
theorem listingLinePlacesOperands : Obligations.ListingLinePlacesOperands := by
  intro env n x y a b hx hy
  have hbinary := fun op => request_binary n op hx hy
  have hunary := fun op => request_unary n op hx
  exact ⟨⟨hbinary .add, hbinary .sub, hbinary .mul, hbinary .emul, hbinary .rsvd7⟩,
    ⟨hunary .neg, hunary .f2q, hunary .q2f⟩, List.lookup_cons_self, rfl, rfl, rfl, rfl⟩

/-- An operand that is well formed after the names bound so far has a word. -/
theorem word_of_ok {env : Bindings} {x : Operand} (h : x.ok (env.map Prod.fst) = true) :
    ∃ w, x.word env = some w := by
  cases x with
  | name n =>
    have hsome : (env.lookup n).isSome = true := by
      simpa [Operand.ok, List.lookup_isSome_iff] using h
    exact Option.isSome_iff_exists.mp hsome
  | literal w => exact ⟨w, rfl⟩
  | q15Ulp => exact ⟨ulpWord, rfl⟩
  | q15Max => exact ⟨maxWord, rfl⟩
  | q15Min => exact ⟨minWord, rfl⟩

/-- A line whose operands are well formed makes a request. -/
theorem request_of_operands_ok {env : Bindings} {l : Line}
    (h : l.operands.all (·.ok (env.map Prod.fst)) = true) : ∃ r, l.request env = some r := by
  cases l with
  | unary n op x =>
    obtain ⟨a, hx⟩ := word_of_ok (env := env) (x := x) (by simpa [Line.operands] using h)
    exact ⟨_, request_unary n op hx⟩
  | binary n op x y =>
    obtain ⟨hx, hy⟩ : x.ok (env.map Prod.fst) = true ∧ y.ok (env.map Prod.fst) = true := by
      simpa [Line.operands] using h
    obtain ⟨a, ha⟩ := word_of_ok hx
    obtain ⟨b, hb⟩ := word_of_ok hy
    exact ⟨_, request_binary n op ha hb⟩

/-- A listing that is well formed after the names bound so far runs to its end: each line binds its name, so the names
of the bindings stay those that `listingWf` goes by. -/
theorem listingRun_of_wf (c : Config) (ls : List Line) (env : Bindings)
    (hwf : listingWf (env.map Prod.fst) ls = true) :
    ∃ tr, listingRun c env ls = some tr ∧ tr.length = ls.length ∧ ∀ p ∈ tr, p.2 = reference c p.1 := by
  induction ls generalizing env with
  | nil => exact ⟨[], rfl, rfl, by simp⟩
  | cons l ls ih =>
    simp only [listingWf, Bool.and_eq_true] at hwf
    obtain ⟨⟨-, hoperands⟩, hrest⟩ := hwf
    obtain ⟨r, hr⟩ := request_of_operands_ok hoperands
    obtain ⟨tr, hrun, hlen, href⟩ := ih ((l.name, (reference c r).y) :: env) hrest
    refine ⟨(r, reference c r) :: tr, ?_, congrArg (· + 1) hlen, List.forall_mem_cons.mpr ⟨rfl, href⟩⟩
    simp [listingRun, hr, hrun]

/-! ## A run of requests, back to back (R92) -/

/-- A run goes on from where a shorter one ends. -/
theorem run_add {s t : State} {m : Nat} (h : core.run m s = .next t) (n : Nat) :
    core.run (m + n) s = core.run n t := by
  induction m generalizing s with
  | zero =>
    obtain rfl : s = t := Host.Outcome.next.inj h
    rw [Nat.zero_add]
  | succ m ih =>
    obtain ⟨u, hu⟩ := step_answers_next s
    rw [Nat.succ_add, run_of_step hu]
    exact ih ((run_of_step hu m).symm.trans h)

/-- No run changes the number of stages (R26). -/
theorem run_pipe_length {s t : State} {n : Nat} (h : core.run n s = .next t) : t.pipe.length = s.pipe.length := by
  induction n generalizing s with
  | zero => rw [Host.Outcome.next.inj h]
  | succ n ih =>
    obtain ⟨u, hu⟩ := step_answers_next s
    obtain ⟨-, hlen, -⟩ := noStepChangesTheParameters s u hu
    rw [run_of_step hu] at h
    exact (ih h).trans hlen

/-- As many idle transfers as there are stages before the empty ones deliver all that is in flight (R88). -/
theorem run_idle_drains (p : List (Option Response)) (k : Nat) (s : State)
    (hpipe : s.pipe = p ++ List.replicate k none) (hdrives : s.drives = List.replicate p.length Drive.idle) :
    ∃ t, core.run p.length s = .next t ∧ t.inFlight = [] ∧ t.responses = s.responses ++ s.inFlight := by
  induction p generalizing k s with
  | nil =>
    have hempty : s.inFlight = [] := by simp [State.inFlight, hpipe]
    exact ⟨s, rfl, hempty, by rw [hempty, List.append_nil]⟩
  | cons o p ih =>
    have hstep : step s = .next s.idle := step_eq_idle (.inr ⟨_, _, hdrives⟩)
    have hpipe' : s.idle.pipe = p ++ List.replicate (k + 1) none := by
      simp [hpipe, shift, List.replicate_succ']
    have hdrives' : s.idle.drives = List.replicate p.length Drive.idle := by
      simp [hdrives, List.replicate_succ]
    obtain ⟨t, hrun, hempty, hgain⟩ := ih (k + 1) s.idle hpipe' hdrives'
    exact ⟨t, (run_of_step hstep p.length).trans hrun, hempty, hgain.trans (idle_conserves s)⟩

/-- Requests that are driven back to back are all accepted (R90). -/
theorem acceptedRequests_ofRequest (c : Config) (reqs : List Request) :
    acceptedRequests c (reqs.map Drive.ofRequest) = reqs := by
  induction reqs with
  | nil => rfl
  | cons r reqs ih => exact congrArg (r :: ·) ih

/-- Requests back to back and then LATENCY idle transfers: the first part of the run gains the response to each request
(`run_gains_accepted_responses`), the second delivers what is left (`run_idle_drains`). -/
theorem run_requests_then_idle (s : State) (reqs : List Request) (hlen : s.pipe.length = s.cfg.latency)
    (hdrives : s.drives = reqs.map Drive.ofRequest ++ List.replicate s.cfg.latency Drive.idle) :
    ∃ t, core.run (reqs.length + s.cfg.latency) s = .next t
      ∧ t.inFlight = [] ∧ t.responses = s.responses ++ s.inFlight ++ reqs.map (reference s.cfg) := by
  obtain ⟨u, hrun, -, hidle, hgain⟩ := run_gains_accepted_responses _ _ s hdrives (by simp)
  rw [List.length_map] at hrun
  have hstages : u.pipe.length = s.cfg.latency := (run_pipe_length hrun).trans hlen
  obtain ⟨t, hdrain, hempty, hall⟩ := run_idle_drains u.pipe 0 u (by simp) (by rw [hidle, hstages])
  refine ⟨t, ?_, hempty, ?_⟩
  · rw [run_add hrun, ← hstages, hdrain]
  · rw [hall, hgain, acceptedRequests_ofRequest]

/-- Settles O48: the listing runs by its well-formedness (`listingRun_of_wf`), and the machine delivers the reference
function's response to each of its requests (`run_requests_then_idle`). -/
theorem wellFormedListingRuns : Obligations.WellFormedListingRuns := by
  intro s ls hwf hlen
  obtain ⟨tr, hlisting, hlines, href⟩ := listingRun_of_wf s.cfg ls [] hwf
  have hresponses : tr.map (·.2) = (tr.map (·.1)).map (reference s.cfg) := by
    rw [List.map_map]
    exact List.map_congr_left href
  obtain ⟨t, hrun, -, hdelivered⟩ := run_requests_then_idle
    { s with drives := (tr.map (·.1)).map Drive.ofRequest ++ List.replicate s.cfg.latency Drive.idle }
    (tr.map (·.1)) hlen rfl
  rw [List.length_map] at hrun
  exact ⟨tr, hlisting, hlines, href, t, hrun, hdelivered.trans (congrArg _ hresponses.symm)⟩

end Sys2Proof.Machine

/-!
Family 40_conversions.md: what F2Q answers in each class of R17, rounding as a relation (unique, monotone, within a
half), and the value of the word Q2F gives.
-/

namespace Sys2Proof.Machine

/-! ## The classes of R17 -/

/-- A word that stands for a real number is classed finite, by its count of 2⁻¹⁴⁹. -/
theorem exists_f32Class_finite {w : Word} {v : Rat} (h : f32Value w = some v) :
    ∃ n : Int, f32Class w = .finite n ∧ v = n * (2 : Rat) ^ (-149 : Int) := by
  obtain ⟨hexp, -, -⟩ := f32_fields w
  by_cases h255 : f32Exp w = 255
  · rw [f32Value, if_pos (hexp.symm.trans h255)] at h
    contradiction
  · obtain ⟨n, hn⟩ : ∃ n, f32Class w = .finite n := ⟨_, if_neg h255⟩
    exact ⟨n, hn, Option.some.inj (h.symm.trans (f32Value_of_finite w n hn))⟩

theorem f32Class_of_isNaN {w : Word} (h : isNaN w = true) : f32Class w = .nan := by
  obtain ⟨hexp, hfrac, -⟩ := f32_fields w
  simp only [isNaN, ← hexp, ← hfrac, Bool.and_eq_true, beq_iff_eq, bne_iff_ne] at h
  simp [f32Class, h]

/-! ## Rounding (R54) -/

theorem abs_sub_le_of_isRoundInt {tie : TieRule} {c : Rat} {n : Int} (h : IsRoundInt tie c n) : |c - n| ≤ 1 / 2 := by
  obtain hlt | ⟨m, rfl, hn⟩ := h
  · exact hlt.le
  · obtain rfl | rfl : n = m ∨ n = m + 1 := by
      cases tie <;> dsimp only at hn <;> split_ifs at hn <;> omega
    · norm_num
    · push_cast
      norm_num [abs_le]

/-- Where an integer is nearer than a half, it is the rounded value. -/
theorem eq_of_isRoundInt_of_abs_lt {tie : TieRule} {c : Rat} {n m : Int} (h : IsRoundInt tie c n)
    (hm : |c - m| < 1 / 2) : n = m := by
  have hdist : |(n : Rat) - m| < 1 := by
    have htri : |(n : Rat) - m| ≤ |n - c| + |c - m| := abs_sub_le _ _ _
    rw [abs_sub_comm (n : Rat) c] at htri
    linarith [abs_sub_le_of_isRoundInt h]
  exact sub_eq_zero.mp (Int.abs_lt_one_iff.mp (by exact_mod_cast hdist))

theorem eq_intCast_of_isRoundInt {tie : TieRule} {m n : Int} (h : IsRoundInt tie m n) : n = m :=
  eq_of_isRoundInt_of_abs_lt h (by simp)

/-- Rounding has one result for each tie rule: two ties of one value have the same floor. -/
theorem isRoundInt_unique {tie : TieRule} {c : Rat} {n n' : Int} (h : IsRoundInt tie c n) (h' : IsRoundInt tie c n') :
    n = n' := by
  match h, h' with
  | .inl hlt, _ => exact (eq_of_isRoundInt_of_abs_lt h' hlt).symm
  | .inr _, .inl hlt' => exact eq_of_isRoundInt_of_abs_lt h hlt'
  | .inr ⟨m, hc, hn⟩, .inr ⟨m', hc', hn'⟩ =>
    have hm : m = m' := by exact_mod_cast add_right_cancel (hc.symm.trans hc')
    rw [hn, hn', hm]

/-- A larger value never rounds lower: the two values would be one tie, which rounds to one integer. -/
theorem isRoundInt_mono {tie : TieRule} {c c' : Rat} {n n' : Int} (h : IsRoundInt tie c n) (h' : IsRoundInt tie c' n')
    (hle : c ≤ c') : n ≤ n' := by
  by_contra hlt
  have hsucc : (n' : Rat) + 1 ≤ n := by exact_mod_cast (by omega : n' + 1 ≤ n)
  have hc := abs_le.mp (abs_sub_le_of_isRoundInt h)
  have hc' := abs_le.mp (abs_sub_le_of_isRoundInt h')
  obtain rfl : c = c' := by linarith
  exact hlt (isRoundInt_unique h h').le

/-- Two tie rules are at most one apart, both results being within a half of the value. -/
theorem abs_sub_le_one_of_isRoundInt {tie tie' : TieRule} {c : Rat} {n n' : Int} (h : IsRoundInt tie c n)
    (h' : IsRoundInt tie' c n') : |n - n'| ≤ 1 := by
  have hdist : |(n : Rat) - n'| ≤ 1 := by
    have htri : |(n : Rat) - n'| ≤ |n - c| + |c - n'| := abs_sub_le _ _ _
    rw [abs_sub_comm (n : Rat) c] at htri
    linarith [abs_sub_le_of_isRoundInt h, abs_sub_le_of_isRoundInt h']
  exact_mod_cast hdist

/-- Where the value is no tie, the tie rule does not matter. -/
theorem eq_of_isRoundInt_of_no_tie {tie tie' : TieRule} {c : Rat} {n n' : Int} (h : IsRoundInt tie c n)
    (h' : IsRoundInt tie' c n') (hno : ∀ m : Int, c ≠ m + 1 / 2) : n = n' := by
  obtain hlt | ⟨m, hc, -⟩ := h
  · exact (eq_of_isRoundInt_of_abs_lt h' hlt).symm
  · exact absurd hc (hno m)

/-! ## The clamp (R53) -/

theorem clampQ_mono {r r' : Rat} (h : r ≤ r') : clampQ r ≤ clampQ r' :=
  min_le_min_right _ (max_le_max_right _ h)

theorem clampQ_of_range {r : Rat} (hlo : -32768 ≤ r) (hhi : r ≤ 32767) : clampQ r = r := by
  rw [clampQ, max_eq_left hlo, min_eq_left hhi]

theorem clampQ_of_ge {r : Rat} (h : 32767 ≤ r) : clampQ r = (32767 : Int) :=
  min_eq_right (h.trans (le_max_left _ _))

theorem clampQ_of_le {r : Rat} (h : r ≤ -32768) : clampQ r = (-32768 : Int) := by
  rw [clampQ, max_eq_right h]
  norm_num

/-! ## F2Q (R53, R55) -/

theorem answer_f2q (c : Config) (a b : Word) : answer c (.f2q a b) = ⟨false, f2qWord c a⟩ := rfl

/-- F2Q of a finite operand is the value scaled, clamped and rounded. -/
theorem f2qWord_isRoundInt (c : Config) {a : Word} {v : Rat} (h : f32Value a = some v) :
    IsRoundInt c.tie (clampQ (v * 32768)) (f2qWord c a).toInt := by
  obtain ⟨n, hclass, rfl⟩ := exists_f32Class_finite h
  have hround := f2qFinite_isRoundInt n c.tie
  obtain ⟨hlo, hhi⟩ := clampQ_range (n * (2 : Rat) ^ (-149 : Int) * 32768)
  have hword : f2qWord c a = q15Result (f2qFinite c.tie n) := by rw [f2qWord, hclass]
  rwa [hword, toInt_q15Result (isRoundInt_range hround _ _ hlo hhi)]

theorem f2qWord_of_isNaN (c : Config) {a : Word} (h : isNaN a = true) : f2qWord c a = q15Word c.nonfinite.nan := by
  rw [f2qWord, f32Class_of_isNaN h]

theorem f2qWord_posInf (c : Config) : f2qWord c 0x7F800000 = q15Word c.nonfinite.posInf := rfl

theorem f2qWord_negInf (c : Config) : f2qWord c 0xFF800000 = q15Word c.nonfinite.negInf := rfl

/-- Where the clamped value is an integer, F2Q gives it. -/
theorem f2qWord_eq_of_clampQ_eq (c : Config) {a y : Word} {v : Rat} (h : f32Value a = some v)
    (hclamp : clampQ (v * 32768) = y.toInt) : f2qWord c a = y := by
  have hround := f2qWord_isRoundInt c h
  rw [hclamp] at hround
  exact BitVec.eq_of_toInt_eq (eq_intCast_of_isRoundInt hround)

/-- Settles O19: F2Q answers with `f2qWord`, whose value is known in each class of R17. -/
theorem f2qScalesClampsAndRounds : Obligations.F2qScalesClampsAndRounds := by
  intro a b s
  refine ⟨f2qWord s.cfg a, exec_f2q a b s, fun v hv => f2qWord_isRoundInt s.cfg hv, fun hnan => ?_, ?_, ?_⟩
  · rw [f2qWord_of_isNaN s.cfg hnan, toInt_q15Word]
  · rintro rfl
    rw [f2qWord_posInf, toInt_q15Word]
  · rintro rfl
    rw [f2qWord_negInf, toInt_q15Word]

/-- Settles O20: the words of the three values of the default policy. -/
theorem f2qNonFiniteDefaultPolicy : Obligations.F2qNonFiniteDefaultPolicy := by
  intro a b s hdefault
  have hexec {y : Word} (hy : f2qWord s.cfg a = y) : exec (.f2q a b) s = .next (s.respond ⟨false, y⟩) :=
    hy ▸ exec_f2q a b s
  refine ⟨fun ha => hexec ?_, fun ha => hexec ?_, fun hnan => hexec ?_⟩
  · rw [ha, f2qWord_posInf, hdefault]
    decide
  · rw [ha, f2qWord_negInf, hdefault]
    decide
  · rw [f2qWord_of_isNaN s.cfg hnan, hdefault]
    decide

/-- Settles O39: below 2⁻¹⁶ the scaled value is nearer than a half to 0, and past either end it is clamped to that
end. -/
theorem f2qCornerCases : Obligations.F2qCornerCases := by
  intro c a b v hv
  rw [answer_f2q]
  refine ⟨fun hsmall => ?_, fun htop => ?_, fun hbottom => ?_⟩
  · have hscaled : |v * 32768| < 1 / 2 := by
      rw [abs_mul]
      norm_num at hsmall ⊢
      linarith
    obtain ⟨hlo, hhi⟩ := abs_lt.mp hscaled
    have hround := f2qWord_isRoundInt c hv
    rw [clampQ_of_range (by linarith) (by linarith)] at hround
    exact BitVec.eq_of_toInt_eq (eq_of_isRoundInt_of_abs_lt hround (m := 0) (by simpa using hscaled))
  · norm_num at htop
    exact f2qWord_eq_of_clampQ_eq c hv (clampQ_of_ge (by linarith))
  · exact f2qWord_eq_of_clampQ_eq c hv (clampQ_of_le (by linarith))

/-- Settles O40: scaling, the clamp and rounding are each monotone. -/
theorem f2qIsMonotone : Obligations.F2qIsMonotone := by
  intro c a a' b b' v v' hv hv' hle
  rw [answer_f2q, answer_f2q]
  exact isRoundInt_mono (f2qWord_isRoundInt c hv) (f2qWord_isRoundInt c hv') (clampQ_mono (by linarith))

/-- Settles O41: both results round one clamped value. -/
theorem tieRulesDifferOnTiesAlone : Obligations.TieRulesDifferOnTiesAlone := by
  intro c c' a b v hv _
  have hround := f2qWord_isRoundInt c hv
  have hround' := f2qWord_isRoundInt c' hv
  rw [answer_f2q, answer_f2q]
  refine ⟨abs_sub_le_one_of_isRoundInt hround hround', fun hno => congrArg (Response.mk false) ?_⟩
  exact BitVec.eq_of_toInt_eq (eq_of_isRoundInt_of_no_tie hround hround' hno)

/-! ## Q2F (R57) -/

theorem answer_q2f (c : Config) (a b : Word) : answer c (.q2f a b) = ⟨false, q2fWord a⟩ := rfl

theorem q2fWord_of_rawInt_eq_zero {w : Word} (h : rawInt w = 0) : q2fWord w = 0x00000000 :=
  if_pos ((q15Operand_eq_rawInt w).trans h)

/-- The fields of Q2F's word, for a raw value that is not zero: its sign, the place of its leading one and the bits
below that one. -/
theorem q2fWord_fields {w : Word} (h : rawInt w ≠ 0) :
    ∃ k, k ≤ 15 ∧ 2 ^ k ≤ (rawInt w).natAbs
      ∧ (q2fWord w).toNat / 2 ^ 31 = (if rawInt w < 0 then 1 else 0)
      ∧ (q2fWord w).toNat / 2 ^ 23 % 256 = k + 112
      ∧ (q2fWord w).toNat % 2 ^ 23 = ((rawInt w).natAbs - 2 ^ k) * 2 ^ (23 - k) := by
  obtain ⟨k, hk, hlo, hhi, hword⟩ := q2fWord_toNat w h
  refine ⟨k, hk, hlo, ?_⟩
  have hfrac : ((rawInt w).natAbs - 2 ^ k) * 2 ^ (23 - k) < 2 ^ 23 := by
    calc ((rawInt w).natAbs - 2 ^ k) * 2 ^ (23 - k)
      _ < 2 ^ k * 2 ^ (23 - k) := Nat.mul_lt_mul_of_pos_right (by omega) (by positivity)
      _ = 2 ^ 23 := by rw [← pow_add, Nat.add_sub_cancel' (by omega)]
  rw [hword]
  generalize ((rawInt w).natAbs - 2 ^ k) * 2 ^ (23 - k) = f at hfrac ⊢
  split_ifs <;> omega

/-- A magnitude with leading one `k`, written as a significand and an exponent: what a normal binary32 stands for. -/
theorem significand_mul_exponent {k m : Nat} (hk : k ≤ 23) (hm : 2 ^ k ≤ m) :
    (1 + ((m - 2 ^ k) * 2 ^ (23 - k) : Nat) * (2 : Rat) ^ (-23 : Int)) * (2 : Rat) ^ (((k + 112 : Nat) : Int) - 127)
      = m * (2 : Rat) ^ (-15 : Int) := by
  have hexp : ((k + 112 : Nat) : Int) - 127 = (k : Int) + (-15) := by omega
  rw [hexp, zpow_add₀ (by norm_num), zpow_natCast, Nat.cast_mul, Nat.cast_sub hm]
  push_cast
  rw [pow_sub₀ 2 (by norm_num) hk]
  field_simp
  ring

/-- The value of Q2F's word is the operand's, exactly. -/
theorem f32Value_q2fWord (w : Word) : f32Value (q2fWord w) = some (q15Value w) := by
  by_cases h : rawInt w = 0
  · rw [q2fWord_of_rawInt_eq_zero h, q15Value, h]
    simp [f32Value]
  obtain ⟨k, hk, hlo, hsign, hexp, hfrac⟩ := q2fWord_fields h
  simp only [f32Value, hsign, hexp, hfrac, q15Value]
  rw [if_neg (by omega), if_neg (by omega), significand_mul_exponent (by omega) hlo, ← mul_assoc]
  congr 2
  rw [Nat.cast_natAbs]
  by_cases hneg : rawInt w < 0
  · simp [hneg, abs_of_neg]
  · simp [hneg, abs_of_nonneg (not_lt.mp hneg)]

/-- The low byte of Q2F's word is zero: sixteen significant bits end above bit 7. -/
theorem q2fWord_toNat_mod_256 (w : Word) : (q2fWord w).toNat % 256 = 0 := by
  by_cases h : rawInt w = 0
  · rw [q2fWord_of_rawInt_eq_zero h]
    rfl
  obtain ⟨k, hk, -, -, -, hfrac⟩ := q2fWord_fields h
  have hdvd : 2 ^ 8 ∣ (q2fWord w).toNat % 2 ^ 23 := by
    rw [hfrac]
    exact Dvd.dvd.mul_left (pow_dvd_pow 2 (by omega)) _
  omega

/-- Settles O21: Q2F answers with `q2fWord`. -/
theorem q2fIsExact : Obligations.Q2fIsExact := by
  intro a b s
  refine ⟨q2fWord a, exec_q2f a b s, f32Value_q2fWord a, q2fWord_of_rawInt_eq_zero, q2fWord_toNat_mod_256 a, ?_⟩
  intro h
  obtain ⟨k, hk, -, -, hexp, -⟩ := q2fWord_fields h
  omega

/-! ## The round trip (R58) -/

theorem q15Value_mul_scale (w : Word) : q15Value w * 32768 = rawInt w := by
  rw [q15Value, mul_assoc]
  norm_num

theorem f2qWord_q2fWord (c : Config) (x : Word) : f2qWord c (q2fWord x) = q15Word (x.setWidth 16) := by
  apply f2qWord_eq_of_clampQ_eq c (f32Value_q2fWord x)
  obtain ⟨hlo, hhi⟩ := rawInt_range x
  have hx : (q15Word (x.setWidth 16)).toInt = rawInt x := by
    rw [toInt_q15Word, BitVec.setWidth_eq_extractLsb' (by decide)]
    exact q15Operand_eq_rawInt x
  rw [q15Value_mul_scale, hx]
  exact clampQ_of_range (by exact_mod_cast hlo) (by exact_mod_cast hhi)

/-- Q2F never gives −0: raw 0 gives +0.0, and any other raw value a word whose exponent is not 0. -/
theorem q2fWord_ne_neg_zero (w : Word) : q2fWord w ≠ 0x80000000 := by
  intro hneg
  by_cases h : rawInt w = 0
  · rw [q2fWord_of_rawInt_eq_zero h] at hneg
    exact absurd hneg (by decide)
  · obtain ⟨k, -, -, -, hexp, -⟩ := q2fWord_fields h
    rw [hneg] at hexp
    simp at hexp

/-- Settles O38: there and back is `f2qWord_q2fWord`; a word that comes back is one of Q2F's, so its value is a raw
value's and it is not −0. -/
theorem conversionRoundTrip : Obligations.ConversionRoundTrip := by
  refine ⟨fun x b b' s t => ⟨q2fWord x, exec_q2f x b s, ?_⟩, fun c w v hv hback => ?_⟩
  · rw [exec_f2q, f2qResponse, f2qWord_q2fWord, normalResponse, q15Word]
  · rw [answer_f2q, answer_q2f] at hback
    dsimp only at hback
    have hvalue : q15Value (f2qWord c w) = v :=
      Option.some.inj ((f32Value_q2fWord _).symm.trans (hback.symm ▸ hv))
    rw [← hvalue, q15Value_mul_scale]
    exact ⟨⟨_, rfl, rawInt_range _⟩, hback ▸ q2fWord_ne_neg_zero _⟩

end Sys2Proof.Machine

/-!
Family 41_multiply.md: the exact product and its range, the rounded shift it is narrowed by, and the laws MUL keeps or
breaks.
-/

namespace Sys2Proof.Machine

/-! ## The product and its range (R59, R60) -/

theorem emulRaw_eq (a b : Word) : emulRaw a b = rawInt a * rawInt b := by
  rw [emulRaw, q15Operand_eq_rawInt, q15Operand_eq_rawInt]

theorem emulRaw_comm (a b : Word) : emulRaw a b = emulRaw b a :=
  mul_comm (q15Operand a) (q15Operand b)

theorem answer_emul (c : Config) (a b : Word) : answer c (.emul a b) = ⟨false, q31Result (emulRaw a b)⟩ := rfl

/-- No bit of the product is lost in the result word (R60). -/
theorem toInt_q31Result_emulRaw (a b : Word) : (q31Result (emulRaw a b)).toInt = rawInt a * rawInt b :=
  (toInt_q31Result (emulRaw_range a b)).trans (emulRaw_eq a b)

theorem abs_rawInt_le (w : Word) : |rawInt w| ≤ 32768 := by
  obtain ⟨hlo, hhi⟩ := rawInt_range w
  exact abs_le.mpr ⟨hlo, by omega⟩

theorem abs_rawInt_le_of_ne_min {w : Word} (h : rawInt w ≠ -32768) : |rawInt w| ≤ 32767 := by
  obtain ⟨hlo, hhi⟩ := rawInt_range w
  exact abs_le.mpr ⟨by omega, hhi⟩

/-- But for −32768 × −32768, one factor is at most 32767 in magnitude, and so the product at most 32767 × 32768. -/
theorem abs_product_le_of_not_both_min {a b : Word} (h : ¬(rawInt a = -32768 ∧ rawInt b = -32768)) :
    |rawInt a * rawInt b| ≤ 1073709056 := by
  rw [abs_mul]
  rcases not_and_or.mp h with ha | hb
  · exact mul_le_mul (abs_rawInt_le_of_ne_min ha) (abs_rawInt_le b) (abs_nonneg _) (by decide)
  · exact mul_le_mul (abs_rawInt_le a) (abs_rawInt_le_of_ne_min hb) (abs_nonneg _) (by decide)

theorem product_eq_max_iff (a b : Word) :
    rawInt a * rawInt b = 1073741824 ↔ rawInt a = -32768 ∧ rawInt b = -32768 := by
  refine ⟨fun hmax => ?_, fun ⟨ha, hb⟩ => by rw [ha, hb]; rfl⟩
  by_contra h
  have habs := abs_product_le_of_not_both_min h
  rw [hmax] at habs
  exact absurd habs (by decide)

/-- Two factors above −32768 have a product of at most 32767² in magnitude, so at the lower end one of them is −32768. -/
theorem product_eq_min_iff (a b : Word) :
    rawInt a * rawInt b = -1073709056
      ↔ (rawInt a = -32768 ∧ rawInt b = 32767) ∨ (rawInt a = 32767 ∧ rawInt b = -32768) := by
  constructor
  · intro hmin
    by_cases ha : rawInt a = -32768
    · rw [ha] at hmin
      exact .inl ⟨ha, by omega⟩
    · by_cases hb : rawInt b = -32768
      · rw [hb] at hmin
        exact .inr ⟨by omega, hb⟩
      · have habs : |rawInt a * rawInt b| ≤ 32767 * 32767 := by
          rw [abs_mul]
          exact mul_le_mul (abs_rawInt_le_of_ne_min ha) (abs_rawInt_le_of_ne_min hb) (abs_nonneg _) (by decide)
        rw [hmin] at habs
        exact absurd habs (by decide)
  · rintro (⟨ha, hb⟩ | ⟨ha, hb⟩) <;> rw [ha, hb] <;> rfl

theorem product_range (a b : Word) : -1073709056 ≤ rawInt a * rawInt b ∧ rawInt a * rawInt b ≤ 1073741824 := by
  by_cases h : rawInt a = -32768 ∧ rawInt b = -32768
  · rw [(product_eq_max_iff a b).mpr h]
    decide
  · obtain ⟨hlo, hhi⟩ := abs_le.mp (abs_product_le_of_not_both_min h)
    exact ⟨hlo, by omega⟩

/-- The two top bits of a word differ exactly where it denotes a number outside [−2³⁰, 2³⁰). -/
theorem top_bits_ne_iff (y : Word) :
    y.getLsbD 31 ≠ y.getLsbD 30 ↔ y.toInt < -1073741824 ∨ 1073741824 ≤ y.toInt := by
  have hlt := y.isLt
  rw [BitVec.toInt_eq_toNat_cond, BitVec.getLsbD, BitVec.getLsbD, Nat.testBit_eq_decide_div_mod_eq,
    Nat.testBit_eq_decide_div_mod_eq, Ne, decide_eq_decide]
  split_ifs <;> omega

/-- Settles O18: the result word denotes the product, and 2⁻³⁰ is 2⁻¹⁵ of each factor. -/
theorem emulIsTheExactProduct : Obligations.EmulIsTheExactProduct := by
  intro a b s
  have hy := toInt_q31Result_emulRaw a b
  refine ⟨q31Result (emulRaw a b), exec_emul a b s, hy, ?_⟩
  have hscale : (2 : Rat) ^ (-30 : Int) = 2 ^ (-15 : Int) * 2 ^ (-15 : Int) := by norm_num
  rw [q31Value, hy, q15Value, q15Value, hscale, Int.cast_mul]
  ring

/-- Settles O33: the bounds and the operands that reach them are the product's; between the bounds only 2³⁰ itself lies
outside [−2³⁰, 2³⁰). -/
theorem emulRange : Obligations.EmulRange := by
  intro c a b
  rw [answer_emul]
  dsimp only
  have hy := toInt_q31Result_emulRaw a b
  obtain ⟨hlo, hhi⟩ := product_range a b
  refine ⟨hy ▸ hlo, hy ▸ hhi, hy ▸ product_eq_max_iff a b, hy ▸ product_eq_min_iff a b, ?_⟩
  have htop : (0x40000000 : Word).toInt = 1073741824 := by decide
  rw [top_bits_ne_iff, ← BitVec.toInt_inj, htop, hy]
  omega

/-! ## The rounded shift and its clamp (R61, R62) -/

theorem mulShifted_eq (a b : Word) : mulShifted a b = (rawInt a * rawInt b + 16384) / 32768 := by
  rw [mulShifted, emulRaw_eq]
  rfl

/-- The shift rounds the product half up: what it gives is the floor of R61. -/
theorem mulShifted_bounds (a b : Word) :
    mulShifted a b * 32768 ≤ rawInt a * rawInt b + 16384
      ∧ rawInt a * rawInt b + 16384 < (mulShifted a b + 1) * 32768 := by
  rw [mulShifted_eq]
  omega

theorem answer_mul (c : Config) (a b : Word) : answer c (.mul a b) = ⟨false, q15Result (mulRaw a b)⟩ := rfl

theorem mulRaw_comm (a b : Word) : mulRaw a b = mulRaw b a := by
  rw [mulRaw, mulRaw, mulShifted, mulShifted, emulRaw_comm]

theorem toInt_q15Result_mulRaw (a b : Word) : (q15Result (mulRaw a b)).toInt = mulRaw a b :=
  toInt_q15Result (sat16_range _)

/-- The result of MUL, fed back as an operand, is the raw value it denotes (R14). -/
theorem rawInt_q15Result_mulRaw (a b : Word) : rawInt (q15Result (mulRaw a b)) = mulRaw a b :=
  (rawInt_q15Word _).trans ((toInt_q15Word _).symm.trans (toInt_q15Result_mulRaw a b))

/-- The one pair that saturates. -/
theorem mulRaw_of_both_min {a b : Word} (h : rawInt a = -32768 ∧ rawInt b = -32768) : mulRaw a b = 32767 := by
  rw [mulRaw, mulShifted_eq, h.1, h.2]
  rfl

theorem mulShifted_range_of_not_both_min {a b : Word} (h : ¬(rawInt a = -32768 ∧ rawInt b = -32768)) :
    -32767 ≤ mulShifted a b ∧ mulShifted a b ≤ 32767 := by
  obtain ⟨hlo, hhi⟩ := abs_le.mp (abs_product_le_of_not_both_min h)
  obtain ⟨hle, hlt⟩ := mulShifted_bounds a b
  omega

/-- No other pair saturates. -/
theorem mulRaw_of_not_both_min {a b : Word} (h : ¬(rawInt a = -32768 ∧ rawInt b = -32768)) :
    mulRaw a b = mulShifted a b := by
  obtain ⟨hlo, hhi⟩ := mulShifted_range_of_not_both_min h
  exact sat16_of_range ⟨by omega, hhi⟩

theorem mulRaw_range (a b : Word) : -32767 ≤ mulRaw a b ∧ mulRaw a b ≤ 32767 := by
  by_cases h : rawInt a = -32768 ∧ rawInt b = -32768
  · rw [mulRaw_of_both_min h]
    decide
  · rw [mulRaw_of_not_both_min h]
    exact mulShifted_range_of_not_both_min h

/-- Settles O17: `q` is the shifted value, and the result is its saturation. -/
theorem mulRoundsHalfUpThenSaturates : Obligations.MulRoundsHalfUpThenSaturates := by
  intro a b s
  obtain ⟨hle, hlt⟩ := mulShifted_bounds a b
  exact ⟨_, mulShifted a b, exec_mul a b s, hle, hlt, (toInt_q15Result_mulRaw a b).trans (sat16_eq _)⟩

/-- Settles O34: −32768 × −32768 saturates, and no other product is large enough to. -/
theorem mulSaturatesOnOnePairOnly : Obligations.MulSaturatesOnOnePairOnly := by
  intro c a b
  rw [answer_mul]
  dsimp only
  rw [toInt_q15Result_mulRaw]
  obtain ⟨hlo, hhi⟩ := mulRaw_range a b
  refine ⟨hlo, hhi, mulRaw_of_both_min, fun h => ?_⟩
  rw [mulRaw_of_not_both_min h]
  exact mulShifted_bounds a b

/-! ## Accuracy (R63 item 2) -/

theorem q15Value_eq_div (w : Word) : q15Value w = rawInt w / 32768 :=
  eq_div_of_mul_eq (by norm_num) (q15Value_mul_scale w)

theorem q15Value_mul_eq_div (a b : Word) :
    q15Value a * q15Value b = ((rawInt a * rawInt b : Int) : Rat) / 1073741824 := by
  rw [q15Value_eq_div, q15Value_eq_div, div_mul_div_comm, Int.cast_mul]
  norm_num

/-- But for −1 × −1, which is 1, the product of two values is in the Q15 range, and the clamp leaves it. -/
theorem clamp_q15Value_mul_of_not_both_min {a b : Word} (h : ¬(rawInt a = -32768 ∧ rawInt b = -32768)) :
    min (max (q15Value a * q15Value b) (-1)) (1 - (2 : Rat) ^ (-15 : Int)) = q15Value a * q15Value b := by
  obtain ⟨hlo, hhi⟩ := abs_le.mp (abs_product_le_of_not_both_min h)
  have hlo' : (-1073709056 : Rat) ≤ (rawInt a * rawInt b : Int) := by exact_mod_cast hlo
  have hhi' : ((rawInt a * rawInt b : Int) : Rat) ≤ 1073709056 := by exact_mod_cast hhi
  have htop : 1 - (2 : Rat) ^ (-15 : Int) = 1073709056 / 1073741824 := by norm_num
  rw [q15Value_mul_eq_div, htop, max_eq_left (by linarith), min_eq_left (by linarith)]

/-- Rounding half up moves the product by at most half a unit of the result. -/
theorem abs_mulShifted_sub_le (a b : Word) : |mulShifted a b * 32768 - rawInt a * rawInt b| ≤ 16384 := by
  obtain ⟨hle, hlt⟩ := mulShifted_bounds a b
  exact abs_le.mpr ⟨by omega, by omega⟩

/-- Settles O35: for the one pair the clamp touches the result is the clamped product itself; for every other pair the
error is that of the rounding. -/
theorem mulIsWithinHalfAnUlp : Obligations.MulIsWithinHalfAnUlp := by
  intro c a b
  rw [answer_mul]
  dsimp only
  by_cases h : rawInt a = -32768 ∧ rawInt b = -32768
  · rw [q15Value_eq_div, rawInt_q15Result_mulRaw, mulRaw_of_both_min h, q15Value_eq_div, q15Value_eq_div, h.1, h.2]
    norm_num
  · rw [clamp_q15Value_mul_of_not_both_min h, q15Value_eq_div, rawInt_q15Result_mulRaw, mulRaw_of_not_both_min h,
      q15Value_mul_eq_div]
    have herr : |((mulShifted a b * 32768 - rawInt a * rawInt b : Int) : Rat)| ≤ 16384 := by
      exact_mod_cast abs_mulShifted_sub_le a b
    have hdiff : (mulShifted a b : Rat) / 32768 - ((rawInt a * rawInt b : Int) : Rat) / 1073741824
        = ((mulShifted a b * 32768 - rawInt a * rawInt b : Int) : Rat) / 1073741824 := by
      push_cast
      ring
    have hulp : (2 : Rat) ^ (-16 : Int) = 16384 / 1073741824 := by norm_num
    rw [hdiff, abs_div, abs_of_pos (by norm_num : (0 : Rat) < 1073741824), hulp]
    exact div_le_div_of_nonneg_right herr (by norm_num)

/-! ## Laws and non-laws (R63 items 1, 3 to 6) -/

theorem answer_add (c : Config) (a b : Word) : answer c (.add a b) = ⟨false, q15Result (addRaw a b)⟩ := rfl

theorem answer_neg (c : Config) (a b : Word) : answer c (.neg a b) = ⟨false, q15Result (negRaw a)⟩ := rfl

/-- The rounded product of x and 32767 is x − x / 32768 rounded half up, which is x while x / 32768 is in (−½, ½]. -/
theorem mulRaw_max_eq_iff (x : Word) : mulRaw x 0x7FFF = rawInt x ↔ -16383 ≤ rawInt x ∧ rawInt x ≤ 16384 := by
  have hmax : rawInt 0x7FFF = 32767 := by decide
  have hnot : ¬(rawInt x = -32768 ∧ rawInt 0x7FFF = -32768) := fun h => absurd (hmax.symm.trans h.2) (by decide)
  rw [mulRaw_of_not_both_min hnot, mulShifted_eq, hmax]
  omega

/-- −32768 is −1 exactly, so the shift gives −x with nothing to round. -/
theorem mulRaw_min_eq_negRaw (x : Word) : mulRaw x 0x8000 = negRaw x := by
  have hmin : rawInt 0x8000 = -32768 := by decide
  have hshift : mulShifted x 0x8000 = 0 - rawInt x := by
    rw [mulShifted_eq, hmin]
    omega
  rw [mulRaw, hshift, negRaw, q15Operand_eq_rawInt]

/-- MUL's raw result from the number in EMUL's result word. -/
theorem mulRaw_eq_sat16_emul (a b : Word) :
    mulRaw a b = sat16 (((q31Result (emulRaw a b)).toInt + 16384) / 32768) := by
  rw [toInt_q31Result_emulRaw, ← mulShifted_eq, mulRaw]

/-- Settles O36. The non-laws fail on small numbers: ulp × ½ × ½ is ulp or 0 by where the rounding falls, and
½ × (ulp + ulp) is one ulp where each ½ × ulp rounds up to one. -/
theorem mulLaws : Obligations.MulLaws := by
  intro c
  simp only [answer_mul, answer_emul, answer_add, answer_neg]
  refine ⟨fun a b => ⟨?_, ?_⟩, by decide, by decide, fun x => ?_, fun x => ?_, ⟨0x0001, 0x4000, 0x4000, by decide⟩,
    ⟨0x4000, 0x0001, 0x0001, by decide⟩, fun a b => ?_⟩
  · rw [mulRaw_comm]
  · rw [emulRaw_comm]
  · rw [toInt_q15Result_mulRaw]
    exact mulRaw_max_eq_iff x
  · rw [mulRaw_min_eq_negRaw]
  · rw [toInt_q15Result_mulRaw, mulRaw_eq_sat16_emul]
    exact sat16_eq _

end Sys2Proof.Machine

/-!
Family 42_add_sub_neg.md: saturation of exact sums and differences, and the laws ADD, SUB and NEG keep or break.
-/

namespace Sys2Proof.Machine

/-! ## Saturation -/

theorem sat16_mono {m n : Int} (h : m ≤ n) : sat16 m ≤ sat16 n := by
  rw [sat16_eq, sat16_eq]
  split_ifs <;> omega

/-- Of the saturated values, only −32768 is lost by negating twice: its negation is not in range. -/
theorem sat16_neg_sat16_neg (n : Int) : sat16 (-sat16 (-n)) = max (-32767) (sat16 n) := by
  simp only [sat16_eq]
  split_ifs <;> omega

theorem neg_32767_le_sat16_iff (n : Int) : -32767 ≤ sat16 n ↔ -32767 ≤ n := by
  rw [sat16_eq]
  split_ifs <;> omega

@[simp] theorem toInt_q15Result_sat16 (n : Int) : (q15Result (sat16 n)).toInt = sat16 n :=
  toInt_q15Result (sat16_range n)

/-- A saturated result, fed back as an operand, is the number it denotes (R14). -/
@[simp] theorem rawInt_q15Result_sat16 (n : Int) : rawInt (q15Result (sat16 n)) = sat16 n :=
  (rawInt_q15Word _).trans ((toInt_q15Word _).symm.trans (toInt_q15Result_sat16 n))

/-- No two raw values share a result word, so a law of result words is one of saturated numbers. -/
@[simp] theorem q15Result_sat16_inj (m n : Int) : q15Result (sat16 m) = q15Result (sat16 n) ↔ sat16 m = sat16 n := by
  rw [← BitVec.toInt_inj, toInt_q15Result_sat16, toInt_q15Result_sat16]

/-! ## The results (R64 to R67) -/

theorem addRaw_eq (a b : Word) : addRaw a b = sat16 (rawInt a + rawInt b) := by
  rw [addRaw, q15Operand_eq_rawInt, q15Operand_eq_rawInt]

theorem subRaw_eq (a b : Word) : subRaw a b = sat16 (rawInt a - rawInt b) := by
  rw [subRaw, q15Operand_eq_rawInt, q15Operand_eq_rawInt]

theorem negRaw_eq (a : Word) : negRaw a = sat16 (-rawInt a) := by
  rw [negRaw, q15Operand_eq_rawInt, zero_sub]

theorem answer_sub (c : Config) (a b : Word) : answer c (.sub a b) = ⟨false, q15Result (subRaw a b)⟩ := rfl

/-- The one operand whose negation saturates. -/
theorem sat16_neg_of_eq_min {n : Int} (h : n = -32768) : sat16 (-n) = 32767 := by
  rw [h]
  rfl

/-- Every other operand is negated exactly. -/
theorem sat16_neg_rawInt_of_ne_min {w : Word} (h : rawInt w ≠ -32768) : sat16 (-rawInt w) = -rawInt w := by
  obtain ⟨hlo, hhi⟩ := rawInt_range w
  exact sat16_of_range ⟨by omega, by omega⟩

/-- SUB from zero forms the difference that NEG saturates. -/
theorem subRaw_zero_left (x : Word) : subRaw 0x00000000 x = negRaw x := by
  have hzero : q15Operand 0x00000000 = 0 := by decide
  rw [subRaw, negRaw, hzero]

/-- Settles O13: the result word denotes the saturated sum. -/
theorem addSaturatesTheSum : Obligations.AddSaturatesTheSum := by
  intro a b s
  refine ⟨_, exec_add a b s, ?_⟩
  rw [addRaw_eq, toInt_q15Result_sat16, sat16_eq]

/-- Settles O14: the result word denotes the saturated difference. -/
theorem subSaturatesTheDifference : Obligations.SubSaturatesTheDifference := by
  intro a b s
  refine ⟨_, exec_sub a b s, ?_⟩
  rw [subRaw_eq, toInt_q15Result_sat16, sat16_eq]

/-- Settles O15: only −32768 has a negation that saturation changes. -/
theorem negSaturatesTheNegation : Obligations.NegSaturatesTheNegation := by
  intro a b s
  refine ⟨_, exec_neg a b s, ?_⟩
  rw [negRaw_eq, toInt_q15Result_sat16]
  split_ifs with h
  · exact sat16_neg_of_eq_min h
  · exact sat16_neg_rawInt_of_ne_min h

/-- Settles O16: the two raw results are one (`subRaw_zero_left`). -/
theorem negIsSubtractionFromZero : Obligations.NegIsSubtractionFromZero := by
  intro x b s
  rw [exec_neg, exec_sub, negResponse, subResponse, subRaw_zero_left]

/-! ## Laws and non-laws (R68) -/

/-- The reversed difference is the negated one, which NEG turns back except at the lower end of the range. -/
theorem sat16_sub_eq_neg_iff (m n : Int) : sat16 (m - n) = sat16 (-sat16 (n - m)) ↔ -32767 ≤ m - n := by
  rw [← neg_sub m n, sat16_neg_sat16_neg, right_eq_sup]
  exact neg_32767_le_sat16_iff _

/-- With −32768 on `b`, SUB saturates A + 32768 where ADD of the saturated negation has A + 32767. -/
theorem sat16_add_32768_eq_iff {n : Int} (h : -32768 ≤ n) : sat16 (n + 32768) = sat16 (n + 32767) ↔ 0 ≤ n := by
  rw [sat16_eq, sat16_eq]
  split_ifs <;> omega

/-- Settles O37: each result is `sat16` of an exact number, so each law is one of saturation. Associativity fails on
32767 + 1 − 1, which saturates only where the first sum is formed first. -/
theorem addSubNegLaws : Obligations.AddSubNegLaws := by
  intro c
  simp only [answer_add, answer_sub, answer_neg, addRaw_eq, subRaw_eq, negRaw_eq, rawInt_q15Result_sat16,
    toInt_q15Result_sat16, q15Result_sat16_inj]
  refine ⟨fun a b => ?comm, fun a b => sat16_sub_eq_neg_iff _ _, ⟨0x7FFF, 0x0001, 0xFFFF, by decide⟩,
    fun a b hb => ?addNeg, fun a b hb => ?addNegMin, fun a b => sat16_of_range, fun a b => sat16_of_range,
    fun a a' b h => ⟨?_, ?_, ?_, ?_⟩⟩
  case comm => rw [add_comm]
  case addNeg => rw [sat16_neg_rawInt_of_ne_min hb, sub_eq_add_neg]
  case addNegMin =>
    rw [sat16_neg_of_eq_min hb, hb, sub_neg_eq_add]
    exact sat16_add_32768_eq_iff (rawInt_range a).1
  all_goals exact sat16_mono (by omega)

end Sys2Proof.Machine

/-!
Family 60_exceptions.md: the one exception leaves nothing behind in the unit but its response.
-/

namespace Sys2Proof.Machine

/-- The next request finds the parameters as they were, so it is answered as it would have been in the response's
place (R75). -/
theorem exec_respond (i : Instr) (s : State) (r : Response) :
    exec i (s.respond r) = .next ((s.respond r).respond (answer s.cfg i)) :=
  exec_eq_respond_answer (s.respond r) i

/-- Two requests in a row add their two responses, in order, after those delivered and in flight (R38). -/
theorem respond_respond_conserves (s : State) (r r' : Response) :
    ((s.respond r).respond r').responses ++ ((s.respond r).respond r').inFlight
      = s.responses ++ s.inFlight ++ [r, r'] := by
  rw [respond_conserves, respond_conserves, List.append_assoc, List.singleton_append]

/-- Settles O26: the reserved request is a transfer that delivers `1_00000000`, and the request after it is answered
by the same parameters (`exec_respond`). -/
theorem illegalOpLeavesOtherRequestsAlone : Obligations.IllegalOpLeavesOtherRequestsAlone := by
  intro a b i s
  exact ⟨_, _, _, exec_rsvd7 a b s, respond_conserves s _, exec_eq_respond_answer s i, exec_respond i s _, rfl,
    respond_respond_conserves s _ _⟩

end Sys2Proof.Machine

/-!
Family 70_reset_and_hazards.md: the step with and without a reset, when a response stands on the port, and the end of
a run.
-/

namespace Sys2Proof.Machine

/-! ## The end of a run (R92, R93) -/

/-- Settles O45: requests back to back and then idle transfers are the run of `run_requests_then_idle`. -/
theorem runEndsWithEveryRequestAnswered : Obligations.RunEndsWithEveryRequestAnswered := by
  intro s reqs hlen
  exact run_requests_then_idle
    { s with drives := reqs.map Drive.ofRequest ++ List.replicate s.cfg.latency Drive.idle } reqs hlen rfl

/-- Settles O23: the reference function of a request is the answer to what it decodes to. -/
theorem execDeliversTheReferenceResponse : Obligations.ExecDeliversTheReferenceResponse :=
  fun r s => exec_eq_respond_answer s (decode r)

/-! ## The reset input (R20, R83, R84, R90) -/

theorem resets_of_rst_eq_false (c : Config) {d : Drive} (h : d.rst = false) : d.resets c = false := by
  simp [Drive.resets, h]

/-- A unit with LATENCY 0 has no reset input (R83). -/
theorem resets_of_latency_eq_zero {c : Config} (d : Drive) (h : c.latency = 0) : d.resets c = false := by
  simp [Drive.resets, h]

/-- A pipelined unit is reset by every drive with `rst = 1` (R84). -/
theorem resets_of_latency_pos {c : Config} {d : Drive} (hrst : d.rst = true) (h : 0 < c.latency) :
    d.resets c = true := by
  simp [Drive.resets, hrst, h]

/-- Settles O6: with `rst = 0`, or no reset input, the drive does not reset the unit, so its request is accepted. -/
theorem stepRunsTheDecodedInstruction : Obligations.StepRunsTheDecodedInstruction := by
  intro s d ds hdrives hvalid hrst
  obtain rfl : s.drive = d := drive_of_drives hdrives
  have hno : s.drive.resets s.cfg = false := hrst.elim (resets_of_rst_eq_false _) (resets_of_latency_eq_zero _)
  exact step_accepts ((accepted_of_not_resets hno).trans hvalid)

/-- Settles O11: neither drive resets the unit, so both steps are the transfer entered by the drive's response, which
is read from `req_valid` and the request alone. -/
theorem resetPinAbsentAtLatencyZero : Obligations.ResetPinAbsentAtLatencyZero := by
  intro s v r ds hlat
  have hno (d : Drive) : d.resets s.cfg = false := resets_of_latency_eq_zero d hlat
  have hresponse : Drive.response? s.cfg ⟨true, v, r⟩ = Drive.response? s.cfg ⟨false, v, r⟩ := by
    simp only [Drive.response?, accepted_of_not_resets (hno _)]
  have htrue := step_eq_advance_response (s := { s with drives := ⟨true, v, r⟩ :: ds }) (hno _)
  have hfalse := step_eq_advance_response (s := { s with drives := ⟨false, v, r⟩ :: ds }) (hno _)
  rw [htrue, hfalse, drive_cons, drive_cons, hresponse]
  rfl

/-- Settles O10: the step is `State.resetEdge`, whose laws are the first clauses; a request with `rst = 0` after it is
one that O6 speaks of. -/
theorem resetEdgeDropsRequestsInFlight : Obligations.ResetEdgeDropsRequestsInFlight := by
  intro s d ds hdrives hrst hlat
  obtain rfl : s.drive = d := drive_of_drives hdrives
  have hds : s.resetEdge.drives = ds := by rw [resetEdge_drives, hdrives, List.tail_cons]
  refine ⟨s.resetEdge, step_resets (resets_of_latency_pos hrst hlat), resetEdge_cfg s, hds, resetEdge_rsp s,
    List.map_const', resetEdge_inFlight s, resetEdge_responses s, fun r ds' hnext => ?_⟩
  exact stepRunsTheDecodedInstruction s.resetEdge ⟨false, true, r⟩ ds' (hds.trans hnext) rfl (.inl rfl)

/-! ## When a response stands on the port (R88) -/

/-- If none of the next `n + 1` drives resets the unit, the drive on the port does not, nor do the `n` after it; past
the end of the list the port is idle. -/
theorem not_resets_of_take_succ {s : State} {n : Nat} (h : ∀ d ∈ s.drives.take (n + 1), d.resets s.cfg = false) :
    s.drive.resets s.cfg = false ∧ ∀ d ∈ s.drives.tail.take n, d.resets s.cfg = false := by
  unfold State.drive
  cases hdrives : s.drives with
  | nil => simp
  | cons d ds =>
    rw [hdrives, List.take_succ_cons] at h
    exact List.forall_mem_cons.mp h

/-- With the port and the stages laid in a row, oldest first, what has `p` before it stands on the port after
`p.length` transfers, each of which takes one from the head of the row. -/
theorem run_shows (p rest : List (Option Response)) (o : Option Response) (s : State)
    (hrow : s.rsp :: s.pipe = p ++ o :: rest) (hresets : ∀ d ∈ s.drives.take p.length, d.resets s.cfg = false) :
    ∃ t, core.run p.length s = .next t ∧ t.rsp = o := by
  induction p generalizing rest s with
  | nil => exact ⟨s, rfl, (List.cons.inj hrow).1⟩
  | cons o' p ih =>
    obtain ⟨hd, htail⟩ := not_resets_of_take_succ hresets
    have hpipe : s.pipe = p ++ o :: rest := (List.cons.inj hrow).2
    have hrow' : (s.advance (s.drive.response? s.cfg)).rsp :: (s.advance (s.drive.response? s.cfg)).pipe
        = p ++ o :: (rest ++ [s.drive.response? s.cfg]) := by
      rw [advance_rsp, advance_pipe, shift_eq_append, hpipe, List.append_assoc, List.cons_append]
    obtain ⟨t, hrun, hshown⟩ := ih _ _ hrow' htail
    exact ⟨t, (run_of_step (step_eq_advance_response hd) p.length).trans hrun, hshown⟩

/-- Settles O46: after the accepting transfer the LATENCY stages it found stand before the response in the row. -/
theorem responseStandsAfterLatency : Obligations.ResponseStandsAfterLatency := by
  intro s t i hlen hexec hresets
  obtain rfl := eq_respond_answer_of_exec hexec
  rw [← hlen] at hresets ⊢
  exact run_shows s.pipe [] _ _ (respond_rsp_cons_pipe s _) hresets

end Sys2Proof.Machine
